-- ==== Sys2Proof/Word.lean ====
section
/-!
DEFINITION. The word types of the block (00_scope.md section 4): a byte, the unsigned 16-bit and 32-bit
words, and the 160-bit header vector `H` of 30_encoding.md R62. No value of this hardware is signed.
-/

namespace Sys2Proof

/-- A byte: 8 bits, unsigned (00_scope.md section 4). -/
abbrev Byte := BitVec 8

/-- `u16` of 00_scope.md section 4. -/
abbrev U16 := BitVec 16

/-- `u32` of 00_scope.md section 4. -/
abbrev U32 := BitVec 32

/-- The header vector `H[159:0]` of 30_encoding.md R62. -/
abbrev Hdr := BitVec 160

/-- The character strings of 43_formatting.md, as lists of characters. -/
abbrev Text := List Char

end Sys2Proof
end

