-- ==== Sys2Proof/Config.lean ====
section
/-!
DEFINITION. The constants and the build-time parameters of the block (00_scope.md R5 to R9), and the one
value the spec leaves to the host with no choice of its own (91_not_in_source.md N11).
-/

namespace Sys2Proof

/-- `HDR_LEN` of R5: the parser looks at exactly the first 20 bytes of a payload. -/
def hdrLen : Nat := 20

/-- `LEN_BYTES` of R6: a count field occupies exactly 4 bytes of the stream. -/
def lenBytes : Nat := 4

/-- `FRAME_ENDIAN` of R8: the byte order of the two kinds of 4-byte count field. -/
inductive Endian where
  /-- `LE` -/
  | le
  /-- `BE` -/
  | be
deriving DecidableEq, Repr

/-- `HEX_CASE` of R9: the letter case of the hexadecimal digits the formatting functions produce. -/
inductive HexCase where
  /-- `UPPER` -/
  | upper
  /-- `LOWER` -/
  | lower
deriving DecidableEq, Repr

/-- The three parameters of R7 to R9, fixed when the block is built (R25). The model carries them beside
the block's state, no step writes them, and a statement over all states is a statement over all values of
them. DESIGN CHOICE: log entry 1. -/
structure Params where
  /-- `FRAME_ENDIAN`, an open parameter (92_eei_decisions.md D1). -/
  frameEndian : Endian
  /-- `MAX_PAYLOAD`, a natural number (R7; 92_eei_decisions.md D2). -/
  maxPayload  : Nat
  /-- `HEX_CASE` (R9; 92_eei_decisions.md D16). -/
  hexCase     : HexCase
deriving DecidableEq, Repr

/-- This hardware's values: `MAX_PAYLOAD = 2048` (R7) and `HEX_CASE = UPPER` (R9). `FRAME_ENDIAN` has no
value in the spec. DESIGN CHOICE: log entry 1 takes `LE`, the order every test vector is given in. -/
def Params.thisHardware : Params :=
  { frameEndian := .le, maxPayload := 2048, hexCase := .upper }

/-- A free value. The exit code of a host whose run ended in `TruncatedRecordError` or held a per-record
error (91_not_in_source.md N11: "Do not assume either 0 or 1"): a function of the end code and of the
record status codes in order, of which nothing is known. Log entry 15. -/
opaque Config.exitCodeLeftOpen (endCode : Nat) (recordStats : List Nat) : Nat

end Sys2Proof
end

