-- ==== Sys2Proof/Syntax.lean ====
section
/-!
DEFINITION. The operations of the block as syntax: one constructor of `Instr` for each of the 39 rows of
spec/opcode_table.json, with the operands its rule names, and `OpWord`, the form in which an operation
reaches the decoder (30_encoding.md R76: what selects a row, and the bytes it is read from).
-/

namespace Sys2Proof

/-- The framer phase `ST` (10_state.md R21; an enumeration of five values, 92_eei_decisions.md D24). -/
inductive Phase where
  /-- `S_COUNT`, value 0 -/
  | sCount
  /-- `S_LEN`, value 1 -/
  | sLen
  /-- `S_PAYLOAD`, value 2 -/
  | sPayload
  /-- `S_DRAIN`, value 3 -/
  | sDrain
  /-- `S_END`, value 4 -/
  | sEnd
deriving DecidableEq, Repr

/-- An input symbol (40_framer.md R90): a byte of the stream, or the end of it. -/
inductive Symbol where
  /-- `B(b)` -/
  | byte (b : Byte)
  /-- `EOS` -/
  | eos
deriving DecidableEq, Repr

/-- The twelve header fields, in the order of 43_formatting.md R148. -/
inductive Field where
  | version | headerLength | typeOfService | totalLength | identification | flags
  | fragmentOffset | timeToLive | protocol | headerChecksum | sourceAddress | destinationAddress
deriving DecidableEq, Repr

/-- The twelve protocol names (42_protocol_lookup.md R120). An absent name is `none` of an `Option`. -/
inductive ProtoName where
  | icmp | igmp | tcp | igrp | udp | gre | esp | ah | skip | eigrp | ospf | l2tp
deriving DecidableEq, Repr

/-- The operations of spec/opcode_table.json, one constructor a row, in the table's order. -/
inductive Instr where
  /-- `version` (R101) -/
  | version (b0 : Byte)
  /-- `headerLength` (R102) -/
  | headerLength (b0 : Byte)
  /-- `typeOfService` (R103) -/
  | typeOfService (b1 : Byte)
  /-- `totalLength` (R104) -/
  | totalLength (b2 b3 : Byte)
  /-- `identification` (R105) -/
  | identification (b4 b5 : Byte)
  /-- `flags` (R106) -/
  | flags (b6 : Byte)
  /-- `fragmentOffset` (R107) -/
  | fragmentOffset (b6 b7 : Byte)
  /-- `timeToLive` (R108) -/
  | timeToLive (b8 : Byte)
  /-- `protocol` (R109) -/
  | protocol (b9 : Byte)
  /-- `headerChecksum` (R110) -/
  | headerChecksum (b10 b11 : Byte)
  /-- `sourceAddress` (R111) -/
  | sourceAddress (b12 b13 b14 b15 : Byte)
  /-- `destinationAddress` (R112) -/
  | destinationAddress (b16 b17 b18 b19 : Byte)
  /-- `DECODE` (R100), of the 160-bit header vector -/
  | decodeHeader (h : Hdr)
  /-- `PROTO_NAME.ICMP` (R121) -/
  | protoIcmp
  /-- `PROTO_NAME.IGMP` (R122) -/
  | protoIgmp
  /-- `PROTO_NAME.TCP` (R123) -/
  | protoTcp
  /-- `PROTO_NAME.IGRP` (R124) -/
  | protoIgrp
  /-- `PROTO_NAME.UDP` (R125) -/
  | protoUdp
  /-- `PROTO_NAME.GRE` (R126) -/
  | protoGre
  /-- `PROTO_NAME.ESP` (R127) -/
  | protoEsp
  /-- `PROTO_NAME.AH` (R128) -/
  | protoAh
  /-- `PROTO_NAME.SKIP` (R129) -/
  | protoSkip
  /-- `PROTO_NAME.EIGRP` (R130) -/
  | protoEigrp
  /-- `PROTO_NAME.OSPF` (R131) -/
  | protoOspf
  /-- `PROTO_NAME.L2TP` (R132) -/
  | protoL2tp
  /-- `PROTO_NAME.none` (R133), for a value no other row matches -/
  | protoNone (p : Byte)
  /-- `READ_COUNT` (R81), on one input symbol -/
  | readCount (sym : Symbol)
  /-- `READ_RECORD.LEN` (R83), on one input symbol -/
  | readLen (sym : Symbol)
  /-- `READ_RECORD.dispatch` (R84), of a completed declared length -/
  | dispatch (d : U32)
  /-- `READ_RECORD.PAYLOAD` (R85), on one input symbol -/
  | readPayload (sym : Symbol)
  /-- `READ_RECORD.DRAIN` (R86), on one input symbol -/
  | readDrain (sym : Symbol)
  /-- `READ_RECORD.complete` (R87), of a payload length -/
  | complete (plen : U32)
  /-- `RUN.next_record` (R89) -/
  | nextRecord
  /-- `open` (R80): `some` the bytes of a source that can be opened, `none` for one that cannot -/
  | openSource (source : Option (List Byte))
  /-- `FMT_HEX` (R141): a value carried in `n` bytes -/
  | fmtHex (v : U16) (n : Nat)
  /-- `FMT_DEC` (R142) -/
  | fmtDec (v : U32)
  /-- `FMT_FIELD` (R143) -/
  | fmtField (f : Field) (v : U16)
  /-- `FMT_ADDR` (R146) -/
  | fmtAddr (o0 o1 o2 o3 : Byte)
  /-- `FMT_PROTO` (R147) -/
  | fmtProto (p : Byte)
deriving DecidableEq, Repr

/-- The operations of the table that have no bits of their own and are not selected by `ST`
(30_encoding.md R76, format `OP`). -/
inductive OpName where
  | dispatch | complete | nextRecord | openSource | fmtHex | fmtDec
  | fmtField (f : Field)
  | fmtAddr | fmtProto
deriving DecidableEq, Repr

/-- What selects a row of the table (30_encoding.md R76). -/
inductive Select where
  /-- the phase `ST`, for the operations that take the next input symbol -/
  | stream (ph : Phase)
  /-- format `IPV4HDR`, the row that has the whole layout -/
  | header
  /-- format `IPV4HDR`, the row of one field -/
  | field (f : Field)
  /-- format `PROTO8`: the bits themselves select the row -/
  | proto8
  /-- format `OP`: the name -/
  | op (o : OpName)
deriving DecidableEq, Repr

/-- What the decoder reads: the selection and the bytes. For `stream` the bytes are the next byte of the
stream, or none at its end; for the `OP` rows, which have no encoding in the spec, the operand bytes in an
order of the model's own (DESIGN CHOICE: log entry 8). -/
structure OpWord where
  sel   : Select
  bytes : List Byte
deriving DecidableEq, Repr

/-- Why the decoder rejects a word. -/
inductive DecodeError where
  /-- the number of bytes is not the selected row's -/
  | wrongLength
  /-- `S_END` selects no operation (40_framer.md R93) -/
  | noOperationInEnd
  /-- an address field has no numeric form (43_formatting.md R144) -/
  | noNumericForm
  /-- the first byte of an `open` word is neither 0 (no source) nor 1 (a source) -/
  | badSource
deriving DecidableEq, Repr

end Sys2Proof
end

