-- ==== Sys2Proof/Machine/Protocol.lean ====
section
/-!
DEFINITION. The fixed protocol-name table (42_protocol_lookup.md R120 to R133), a constant of the design,
and the carrier widths of the header fields (43_formatting.md R144).
-/

namespace Sys2Proof

/-- The twelve pairs of R120, in the spec's order. They are taken as the spec gives them and not corrected
from outside (42_protocol_lookup.md section 3). -/
def protoTable : List (Byte × ProtoName) :=
  [(1#8, .icmp), (2#8, .igmp), (6#8, .tcp), (9#8, .igrp), (17#8, .udp), (47#8, .gre),
   (50#8, .esp), (51#8, .ah), (57#8, .skip), (88#8, .eigrp), (89#8, .ospf), (115#8, .l2tp)]

/-- `PROTO_NAME` (R120): the name of a protocol value, absent for the 244 values of R133. -/
def protoName (p : Byte) : Option ProtoName := protoTable.lookup p

/-- The value that selects each named row (R121 to R132). -/
def protoKey : ProtoName → Byte
  | .icmp => 0x01#8
  | .igmp => 0x02#8
  | .tcp => 0x06#8
  | .igrp => 0x09#8
  | .udp => 0x11#8
  | .gre => 0x2F#8
  | .esp => 0x32#8
  | .ah => 0x33#8
  | .skip => 0x39#8
  | .eigrp => 0x58#8
  | .ospf => 0x59#8
  | .l2tp => 0x73#8

/-- `carrier_bytes` of R144: absent for the two addresses, which `FMT_ADDR` alone renders. -/
def carrierBytes : Field → Option Nat
  | .version => some 1
  | .headerLength => some 1
  | .typeOfService => some 1
  | .totalLength => some 2
  | .identification => some 2
  | .flags => some 1
  | .fragmentOffset => some 2
  | .timeToLive => some 1
  | .protocol => some 1
  | .headerChecksum => some 2
  | .sourceAddress => none
  | .destinationAddress => none

end Sys2Proof
end

