-- ==== Sys2Proof/WellFormed.lean ====
section
/-!
DEFINITION. When an instruction is one the spec describes: the operand ranges that its rule gives and that
the operand's type does not already enforce.
-/

namespace Sys2Proof

/-- A value fits in `n` carrier bytes, `n` being 1 or 2 (43_formatting.md R141). -/
def fitsCarrier (v : U16) (n : Nat) : Bool := (n == 1 || n == 2) && decide (v.toNat < 256 ^ n)

/-- `PROTO_NAME.none` stands for a value no other `PROTO8` row matches (42_protocol_lookup.md R133);
`FMT_HEX` takes a value of one or two bytes (43_formatting.md R141); `FMT_FIELD` takes a field with a
carrier width, and a value that fits it (43_formatting.md R143, R144). Every other operand is unrestricted:
no header value is illegal (30_encoding.md R68) and no length or count is reserved (30_encoding.md R71). -/
def Instr.wf : Instr → Bool
  | .protoNone p => (protoName p).isNone
  | .fmtHex v n => fitsCarrier v n
  | .fmtField f v =>
    match carrierBytes f with
    | none => false
    | some n => fitsCarrier v n
  | .version _ => true
  | .headerLength _ => true
  | .typeOfService _ => true
  | .totalLength _ _ => true
  | .identification _ _ => true
  | .flags _ => true
  | .fragmentOffset _ _ => true
  | .timeToLive _ => true
  | .protocol _ => true
  | .headerChecksum _ _ => true
  | .sourceAddress _ _ _ _ => true
  | .destinationAddress _ _ _ _ => true
  | .decodeHeader _ => true
  | .protoIcmp => true
  | .protoIgmp => true
  | .protoTcp => true
  | .protoIgrp => true
  | .protoUdp => true
  | .protoGre => true
  | .protoEsp => true
  | .protoAh => true
  | .protoSkip => true
  | .protoEigrp => true
  | .protoOspf => true
  | .protoL2tp => true
  | .readCount _ => true
  | .readLen _ => true
  | .dispatch _ => true
  | .readPayload _ => true
  | .readDrain _ => true
  | .complete _ => true
  | .nextRecord => true
  | .openSource _ => true
  | .fmtDec _ => true
  | .fmtAddr _ _ _ _ => true
  | .fmtProto _ => true

end Sys2Proof
end

