-- ==== Sys2Proof/Decode.lean ====
section
/-!
DEFINITION. The decoder, total on every word and rejecting by name, and the encoder, both written from the
formats of 30_encoding.md R60 to R64 and R76. `decodeTableWord` reads the bits of one row of
spec/opcode_table.json through the same decoder.
-/

namespace Sys2Proof

/-! ## Byte order -/

/-- The first `k` bytes of a payload as one number, byte 0 the most significant. -/
def hdrPrefix (b : Nat → Byte) : Nat → Hdr
  | 0 => 0#160
  | k + 1 => (hdrPrefix b k <<< 8) ||| (b k).setWidth 160

/-- `H = byte0 ++ byte1 ++ ... ++ byte19` (30_encoding.md R62). -/
def hdrOf (b : Nat → Byte) : Hdr := hdrPrefix b 20

/-- `byteN = H[159-8N : 152-8N]` (30_encoding.md R62). -/
def hdrByte (h : Hdr) (n : Nat) : Byte := h.extractLsb' (152 - 8 * n) 8

/-- The header vector of a list of bytes in payload order. -/
def hdrOfBytes (bs : List Byte) : Hdr := hdrOf fun n => bs.getD n 0#8

/-- The twenty bytes of a header vector, in payload order. -/
def hdrBytes (h : Hdr) : List Byte := (List.range 20).map (hdrByte h)

/-- `u32_of` (30_encoding.md R64): the value of four bytes in stream order. -/
def u32Of (e : Endian) (b0 b1 b2 b3 : Byte) : U32 :=
  match e with
  | .le => b3 ++ b2 ++ b1 ++ b0
  | .be => b0 ++ b1 ++ b2 ++ b3

/-- Byte `k` of a word, `k = 0` the least significant. -/
def byteAt (v : U32) (k : Nat) : Byte := v.extractLsb' (8 * k) 8

/-- The four bytes of a count field in stream order (20_memory.md R41). -/
def u32Bytes (e : Endian) (v : U32) : List Byte :=
  match e with
  | .le => [byteAt v 0, byteAt v 1, byteAt v 2, byteAt v 3]
  | .be => [byteAt v 3, byteAt v 2, byteAt v 1, byteAt v 0]

/-! ## Decoding -/

/-- The symbol of the bytes fetched from the stream: one byte, or none at the end of it (20_memory.md R44). -/
def symbolOf : List Byte → Option Symbol
  | [] => some .eos
  | [b] => some (.byte b)
  | _ :: _ :: _ => none

/-- The operation a phase selects (10_state.md R21, 40_framer.md R90); `S_END` selects none. -/
def phaseInstr (ph : Phase) (sym : Symbol) : Except DecodeError Instr :=
  match ph with
  | .sCount => .ok (.readCount sym)
  | .sLen => .ok (.readLen sym)
  | .sPayload => .ok (.readPayload sym)
  | .sDrain => .ok (.readDrain sym)
  | .sEnd => .error .noOperationInEnd

/-- The extraction of one field from the twenty header bytes (30_encoding.md R62, 20_memory.md R47). -/
def fieldInstr (f : Field) (b : Nat → Byte) : Instr :=
  match f with
  | .version => .version (b 0)
  | .headerLength => .headerLength (b 0)
  | .typeOfService => .typeOfService (b 1)
  | .totalLength => .totalLength (b 2) (b 3)
  | .identification => .identification (b 4) (b 5)
  | .flags => .flags (b 6)
  | .fragmentOffset => .fragmentOffset (b 6) (b 7)
  | .timeToLive => .timeToLive (b 8)
  | .protocol => .protocol (b 9)
  | .headerChecksum => .headerChecksum (b 10) (b 11)
  | .sourceAddress => .sourceAddress (b 12) (b 13) (b 14) (b 15)
  | .destinationAddress => .destinationAddress (b 16) (b 17) (b 18) (b 19)

/-- The row of a protocol name (42_protocol_lookup.md R121 to R132). -/
def nameInstr : ProtoName → Instr
  | .icmp => .protoIcmp
  | .igmp => .protoIgmp
  | .tcp => .protoTcp
  | .igrp => .protoIgrp
  | .udp => .protoUdp
  | .gre => .protoGre
  | .esp => .protoEsp
  | .ah => .protoAh
  | .skip => .protoSkip
  | .eigrp => .protoEigrp
  | .ospf => .protoOspf
  | .l2tp => .protoL2tp

/-- The `PROTO8` row of a value: an exact match on all 8 bits, and the default row when no other matches
(30_encoding.md R76). -/
def protoInstr (p : Byte) : Instr :=
  match protoName p with
  | some n => nameInstr n
  | none => .protoNone p

/-- The carrier bytes of a value, most significant first (20_memory.md R42). -/
def carrierValue : List Byte → Option (U16 × Nat)
  | [b] => some (b.setWidth 16, 1)
  | [h, l] => some (h ++ l, 2)
  | _ => none

/-- The `OP` rows, from their operand bytes. -/
def opInstr (o : OpName) (bs : List Byte) : Except DecodeError Instr :=
  match o with
  | .dispatch =>
    match bs with
    | [b0, b1, b2, b3] => .ok (.dispatch (u32Of .be b0 b1 b2 b3))
    | _ => .error .wrongLength
  | .complete =>
    match bs with
    | [b0, b1, b2, b3] => .ok (.complete (u32Of .be b0 b1 b2 b3))
    | _ => .error .wrongLength
  | .nextRecord =>
    match bs with
    | [] => .ok .nextRecord
    | _ :: _ => .error .wrongLength
  | .openSource =>
    match bs with
    | [] => .error .wrongLength
    | b :: rest =>
      if b = 1#8 then .ok (.openSource (some rest))
      else if b = 0#8 then
        if rest = [] then .ok (.openSource none) else .error .wrongLength
      else .error .badSource
  | .fmtHex =>
    match carrierValue bs with
    | some (v, n) => .ok (.fmtHex v n)
    | none => .error .wrongLength
  | .fmtDec =>
    match bs with
    | [b0, b1, b2, b3] => .ok (.fmtDec (u32Of .be b0 b1 b2 b3))
    | _ => .error .wrongLength
  | .fmtField f =>
    match carrierBytes f with
    | none => .error .noNumericForm
    | some n =>
      match carrierValue bs with
      | some (v, m) => if m = n then .ok (.fmtField f v) else .error .wrongLength
      | none => .error .wrongLength
  | .fmtAddr =>
    match bs with
    | [o0, o1, o2, o3] => .ok (.fmtAddr o0 o1 o2 o3)
    | _ => .error .wrongLength
  | .fmtProto =>
    match bs with
    | [p] => .ok (.fmtProto p)
    | _ => .error .wrongLength

/-- The decoder: total on every word, rejecting by name. -/
def decode (w : OpWord) : Except DecodeError Instr :=
  match w.sel with
  | .stream ph =>
    match symbolOf w.bytes with
    | some sym => phaseInstr ph sym
    | none => .error .wrongLength
  | .header =>
    if w.bytes.length = hdrLen then .ok (.decodeHeader (hdrOfBytes w.bytes)) else .error .wrongLength
  | .field f =>
    if w.bytes.length = hdrLen then .ok (fieldInstr f fun n => w.bytes.getD n 0#8)
    else .error .wrongLength
  | .proto8 =>
    match w.bytes with
    | [p] => .ok (protoInstr p)
    | _ => .error .wrongLength
  | .op o => opInstr o w.bytes

/-! ## Encoding -/

/-- The word of an input symbol in a phase. -/
def symbolWord (ph : Phase) (sym : Symbol) : OpWord :=
  match sym with
  | .byte b => { sel := .stream ph, bytes := [b] }
  | .eos => { sel := .stream ph, bytes := [] }

/-- A header that holds the given bytes from offset `at_` on and zero elsewhere. -/
def fieldWord (f : Field) (at_ : Nat) (bs : List Byte) : OpWord :=
  { sel := .field f
    bytes := List.replicate at_ 0#8 ++ bs ++ List.replicate (hdrLen - at_ - bs.length) 0#8 }

/-- The word of a protocol value. -/
def protoWord (p : Byte) : OpWord := { sel := .proto8, bytes := [p] }

/-- The word of an `OP` row. -/
def opWord (o : OpName) (bs : List Byte) : OpWord := { sel := .op o, bytes := bs }

/-- The `n` carrier bytes of a value, most significant first (20_memory.md R42). -/
def carrierOf (v : U16) (n : Nat) : List Byte :=
  if n = 1 then [v.extractLsb' 0 8] else [v.extractLsb' 8 8, v.extractLsb' 0 8]

/-- The word of a well-formed instruction. -/
def encode : Instr → OpWord
  | .version b0 => fieldWord .version 0 [b0]
  | .headerLength b0 => fieldWord .headerLength 0 [b0]
  | .typeOfService b1 => fieldWord .typeOfService 1 [b1]
  | .totalLength b2 b3 => fieldWord .totalLength 2 [b2, b3]
  | .identification b4 b5 => fieldWord .identification 4 [b4, b5]
  | .flags b6 => fieldWord .flags 6 [b6]
  | .fragmentOffset b6 b7 => fieldWord .fragmentOffset 6 [b6, b7]
  | .timeToLive b8 => fieldWord .timeToLive 8 [b8]
  | .protocol b9 => fieldWord .protocol 9 [b9]
  | .headerChecksum b10 b11 => fieldWord .headerChecksum 10 [b10, b11]
  | .sourceAddress b12 b13 b14 b15 => fieldWord .sourceAddress 12 [b12, b13, b14, b15]
  | .destinationAddress b16 b17 b18 b19 => fieldWord .destinationAddress 16 [b16, b17, b18, b19]
  | .decodeHeader h => { sel := .header, bytes := hdrBytes h }
  | .protoIcmp => protoWord (protoKey .icmp)
  | .protoIgmp => protoWord (protoKey .igmp)
  | .protoTcp => protoWord (protoKey .tcp)
  | .protoIgrp => protoWord (protoKey .igrp)
  | .protoUdp => protoWord (protoKey .udp)
  | .protoGre => protoWord (protoKey .gre)
  | .protoEsp => protoWord (protoKey .esp)
  | .protoAh => protoWord (protoKey .ah)
  | .protoSkip => protoWord (protoKey .skip)
  | .protoEigrp => protoWord (protoKey .eigrp)
  | .protoOspf => protoWord (protoKey .ospf)
  | .protoL2tp => protoWord (protoKey .l2tp)
  | .protoNone p => protoWord p
  | .readCount sym => symbolWord .sCount sym
  | .readLen sym => symbolWord .sLen sym
  | .dispatch d => opWord .dispatch (u32Bytes .be d)
  | .readPayload sym => symbolWord .sPayload sym
  | .readDrain sym => symbolWord .sDrain sym
  | .complete plen => opWord .complete (u32Bytes .be plen)
  | .nextRecord => opWord .nextRecord []
  | .openSource none => opWord .openSource [0#8]
  | .openSource (some bs) => opWord .openSource (1#8 :: bs)
  | .fmtHex v n => opWord .fmtHex (carrierOf v n)
  | .fmtDec v => opWord .fmtDec (u32Bytes .be v)
  | .fmtField f v => opWord (.fmtField f) (carrierOf v ((carrierBytes f).getD 2))
  | .fmtAddr o0 o1 o2 o3 => opWord .fmtAddr [o0, o1, o2, o3]
  | .fmtProto p => opWord .fmtProto [p]

/-! ## The rows of spec/opcode_table.json -/

/-- The word of a table row whose bits are `w`. An 8-bit word is a `PROTO8` value; a 32-bit word is a count
field, whose first stream byte the block reads first, in the phase after reset; a 160-bit word is the header
vector `H` of 30_encoding.md R62, read by the row that has the whole layout (log entry 9). -/
def tableWord (e : Endian) (nbits w : Nat) : Option OpWord :=
  if nbits = 8 then some (protoWord (BitVec.ofNat 8 w))
  else if nbits = 32 then
    some { sel := .stream .sCount, bytes := (u32Bytes e (BitVec.ofNat 32 w)).take 1 }
  else if nbits = 160 then some { sel := .header, bytes := hdrBytes (BitVec.ofNat 160 w) }
  else none

/-- The instruction the decoder reads from the bits of a table row. -/
def decodeTableWord (nbits w : Nat) : Option Instr :=
  (tableWord Params.thisHardware.frameEndian nbits w).bind fun ow =>
    match decode ow with
    | .ok i => some i
    | .error _ => none

end Sys2Proof
end

