-- ==== Sys2Proof/Machine/State.lean ====
section
/-!
DEFINITION. The state of the block as the spec gives it (10_state.md R10 to R34), with the source's stream
(R20, 20_memory.md R44) and the output events (R29) beside it; the reasons a step can stop; the state after
reset (70_reset_and_hazards.md R180).
-/

namespace Sys2Proof.Machine

/-! ## Status codes -/

/-- The status of a record, `R_STAT` (10_state.md R28; an enumeration, 92_eei_decisions.md D7). -/
inductive RecStat where
  /-- `OK`, code 0 -/
  | ok
  /-- `RecordTooLargeError`, code 4 -/
  | recordTooLarge
  /-- `HeaderTooShortError`, code 5 -/
  | headerTooShort
deriving DecidableEq, Repr

/-- How the run ended, `END_CODE` (10_state.md R24). -/
inductive EndCode where
  /-- `OK`, code 0 -/
  | ok
  /-- `TruncatedStreamError`, code 2 -/
  | truncatedStream
  /-- `TruncatedRecordError`, code 3 -/
  | truncatedRecord
deriving DecidableEq, Repr

/-- The five error kinds of 60_exceptions.md R150. -/
inductive ErrorKind where
  /-- `IoError`, code 1: the host's alone (R151) -/
  | ioError
  /-- `TruncatedStreamError`, code 2 (R152) -/
  | truncatedStream
  /-- `TruncatedRecordError`, code 3 (R153) -/
  | truncatedRecord
  /-- `RecordTooLargeError`, code 4 (R154) -/
  | recordTooLarge
  /-- `HeaderTooShortError`, code 5 (R155) -/
  | headerTooShort
deriving DecidableEq, Repr

/-! ## The result register file and the events -/

/-- The header registers `H_*` of 10_state.md R28, each with the bits its field has in the header. An
`IPv4Header` of R29 is the same record. The name is the optional enumeration of 92_eei_decisions.md D15.
DEDUCED: log entries 13 and 17. -/
structure IPv4Header where
  /-- `H_VER` -/
  version            : BitVec 4
  /-- `H_IHL` -/
  headerLength       : BitVec 4
  /-- `H_TOS` -/
  typeOfService      : BitVec 8
  /-- `H_TLEN` -/
  totalLength        : BitVec 16
  /-- `H_ID` -/
  identification     : BitVec 16
  /-- `H_FLG` -/
  flags              : BitVec 3
  /-- `H_FOFF` -/
  fragmentOffset     : BitVec 13
  /-- `H_TTL` -/
  timeToLive         : BitVec 8
  /-- `H_PROTO` -/
  protocol           : BitVec 8
  /-- `H_PNAME`, code 0 being `none` -/
  protocolName       : Option ProtoName
  /-- `H_CSUM` -/
  headerChecksum     : BitVec 16
  /-- `H_SRC`, byte 12 in bits 31..24 -/
  sourceAddress      : BitVec 32
  /-- `H_DST`, byte 16 in bits 31..24 -/
  destinationAddress : BitVec 32
deriving DecidableEq, Repr

/-- Every `H_*` register at 0 (R28). -/
def IPv4Header.zero : IPv4Header :=
  { version := 0#4, headerLength := 0#4, typeOfService := 0#8, totalLength := 0#16
    identification := 0#16, flags := 0#3, fragmentOffset := 0#13, timeToLive := 0#8, protocol := 0#8
    protocolName := none, headerChecksum := 0#16, sourceAddress := 0#32, destinationAddress := 0#32 }

/-- The result register file (10_state.md R28). -/
structure ResultFile where
  /-- `R_IDX` -/
  rIdx  : U32
  /-- `R_DLEN` -/
  rDlen : U32
  /-- `R_STAT` -/
  rStat : RecStat
  /-- `R_PLEN` -/
  rPlen : U32
  /-- `R_HDRV` -/
  rHdrv : Bool
  /-- the `H_*` registers -/
  hdr   : IPv4Header
deriving DecidableEq, Repr

/-- Every result register at 0 (R28, 70_reset_and_hazards.md R180). -/
def ResultFile.zero : ResultFile :=
  { rIdx := 0#32, rDlen := 0#32, rStat := .ok, rPlen := 0#32, rHdrv := false, hdr := .zero }

/-- The output events (10_state.md R29). -/
inductive Event where
  /-- `CountEv(n)` -/
  | count (n : U32)
  /-- `RecEv(idx, dlen, stat, plen, hdr)` -/
  | record (idx dlen : U32) (stat : RecStat) (plen : U32) (hdr : Option IPv4Header)
  /-- `EndEv(code, idx)` -/
  | finish (code : EndCode) (idx : U32)
deriving DecidableEq, Repr

/-- The event strobes `cnt_valid`, `rec_valid` and `end_valid` (70_reset_and_hazards.md R180, R186).
DEDUCED that they are state: log entry 3. -/
structure Strobes where
  cntValid : Bool := false
  recValid : Bool := false
  endValid : Bool := false
deriving DecidableEq, Repr

/-! ## Memory -/

/-- The payload buffer `PBUF` (10_state.md R32) by its filled offsets, strictly rising. An offset that is
not listed holds no readable value (R34, 93_implementation_defined.md U10). Log entry 7. -/
abbrev Memory := List Host.Cell

/-! ## Values of the pure operations -/

/-- What an operation that only computes gives its caller: the extractions, `DECODE`, `PROTO_NAME`, the
formatting functions, and `open`. -/
inductive Value where
  /-- nothing has been computed yet -/
  | nothing
  /-- a value carried in a `u8` (10_state.md R28) -/
  | u8 (v : BitVec 8)
  /-- a value carried in a `u16` (10_state.md R28) -/
  | u16 (v : BitVec 16)
  /-- four octets in payload order (30_encoding.md R67) -/
  | octets (o0 o1 o2 o3 : Byte)
  /-- a decoded header (41_ipv4_fields.md R100) -/
  | header (h : IPv4Header)
  /-- a protocol name, or its absence (42_protocol_lookup.md R120) -/
  | name (n : Option ProtoName)
  /-- one string (43_formatting.md R141, R142, R146) -/
  | text (t : Text)
  /-- the pair of strings of `FMT_FIELD` (43_formatting.md R143) -/
  | texts (hex dec : Text)
  /-- the pair of strings and the optional name of `FMT_PROTO` (43_formatting.md R147) -/
  | protoTexts (hex dec : Text) (n : Option ProtoName)
  /-- `open` gave a stream (40_framer.md R80) -/
  | stream
  /-- `open` failed, at the host (40_framer.md R80, 60_exceptions.md R151) -/
  | error (e : ErrorKind)
deriving DecidableEq, Repr

/-! ## The state -/

/-- The whole state. The fields from `st` to `pbuf` and `res` are the block's own (10_state.md R10),
`strobe` its registered output strobes (70_reset_and_hazards.md R180); `stream` and `cur` belong to the
source (R20); `params` are the build parameters (R7 to R9); `events`, `calls` and `ret` are the model's own
(log entries 4, 5, 6 and 8). -/
structure State where
  /-- the build parameters; no step writes them (R25) -/
  params  : Params
  /-- the input: the fixed finite list of bytes of 20_memory.md R53 (log entry 11) -/
  stream  : List Byte
  /-- `CUR` (R20): the number of bytes consumed -/
  cur     : Nat
  /-- `ST` (R21) -/
  st      : Phase
  /-- `BCNT` (R15) -/
  bcnt    : BitVec 2
  /-- `PCOUNT` (R11) -/
  pcount  : U32
  /-- `DLEN` (R12) -/
  dlen    : U32
  /-- `PIDX` (R13) -/
  pidx    : U32
  /-- `RCVD` (R14) -/
  rcvd    : U32
  /-- `END_CODE` (R24) -/
  endCode : EndCode
  /-- `END_IDX` (R24) -/
  endIdx  : U32
  /-- `PBUF` (R32) -/
  pbuf    : Memory
  /-- the result registers (R28) -/
  res     : ResultFile
  /-- the event strobes (70_reset_and_hazards.md R186) -/
  strobe  : Strobes
  /-- the events of the run so far, oldest first (R29) -/
  events  : List Event
  /-- operations the caller has asked for by name; empty in every run of the block -/
  calls   : List OpWord
  /-- what the last operation that only computes gave its caller -/
  ret     : Value
deriving DecidableEq, Repr

/-- The reasons the machine stops with a fault. -/
inductive Fault where
  /-- Raised by `READ_RECORD.PAYLOAD` when `RCVD >= MAX_PAYLOAD`, an offset of `PBUF` that does not exist
  (10_state.md R33; 93_implementation_defined.md U3). No state with the invariant of 10_state.md R35
  reaches it. Safe. -/
  | bufferOverflow
  /-- Raised by `READ_RECORD.complete` when the first 20 bytes of `PBUF` are not all filled, where
  `MemRead` is not defined (20_memory.md R45). No state with the invariant of 10_state.md R35 reaches it.
  Safe. -/
  | bufferNotFilled
deriving DecidableEq, Repr

/-- The reasons a step is refused. -/
inductive Refusal where
  /-- Raised by `exec` for an instruction that has no meaning yet. Safe. -/
  | notModelled (mnemonic : String)
  /-- Raised by the step for a word that the decoder rejects. Only a caller's word can be one. Safe. -/
  | undecodable (e : DecodeError)
  /-- Raised by the four operations that take an input symbol, in a phase that does not select them: "what
  can run is decided by `ST` alone" (60_exceptions.md R168). The step never raises it, because it selects
  by `ST`. Safe. -/
  | notSelected
  /-- Raised by `PROTO_NAME.none`, `FMT_HEX` and `FMT_FIELD` for operands that are not well-formed: outside
  the domain their rules give (42_protocol_lookup.md R133, 43_formatting.md R141, R144). Safe. -/
  | outsideDomain
deriving DecidableEq, Repr

/-! ## Reset -/

/-- The state after reset (70_reset_and_hazards.md R180). No stream has been presented, and nothing is
asked of the block. Log entries 1, 2 and 5 name what the spec does not give. -/
def State.reset : State :=
  { params := .thisHardware
    stream := []
    cur := 0
    st := .sCount
    bcnt := 0#2
    pcount := 0#32
    dlen := 0#32
    pidx := 0#32
    rcvd := 0#32
    endCode := .ok
    endIdx := 0#32
    pbuf := []
    res := .zero
    strobe := {}
    events := []
    calls := []
    ret := .nothing }

end Sys2Proof.Machine
end

