-- ==== Sys2Proof/Machine/Flags.lean ====
section
/-!
DEFINITION. The block has no condition codes and no arithmetic flags (10_state.md R23). Its status is the
phase, the end status and the record status; this file gives their code numbers, the strobe an event raises,
and the result registers a record event leaves (10_state.md R30). DEDUCED that the codes no rule takes do not
exist: log entry 13.
-/

namespace Sys2Proof.Machine

/-- The value of `ST` (10_state.md R21). -/
def phaseCode : Phase → BitVec 3
  | .sCount => 0#3
  | .sLen => 1#3
  | .sPayload => 2#3
  | .sDrain => 3#3
  | .sEnd => 4#3

/-- The code of a record status (60_exceptions.md R150). -/
def RecStat.code : RecStat → BitVec 3
  | .ok => 0#3
  | .recordTooLarge => 4#3
  | .headerTooShort => 5#3

/-- The code of an end status (60_exceptions.md R150). -/
def EndCode.code : EndCode → BitVec 3
  | .ok => 0#3
  | .truncatedStream => 2#3
  | .truncatedRecord => 3#3

/-- The code of an error kind (60_exceptions.md R150). -/
def ErrorKind.code : ErrorKind → BitVec 3
  | .ioError => 1#3
  | .truncatedStream => 2#3
  | .truncatedRecord => 3#3
  | .recordTooLarge => 4#3
  | .headerTooShort => 5#3

/-- The `H_PNAME` code of an optional name (42_protocol_lookup.md R121 to R133). -/
def nameCode : Option ProtoName → BitVec 4
  | none => 0#4
  | some .icmp => 1#4
  | some .igmp => 2#4
  | some .tcp => 3#4
  | some .igrp => 4#4
  | some .udp => 5#4
  | some .gre => 6#4
  | some .esp => 7#4
  | some .ah => 8#4
  | some .skip => 9#4
  | some .eigrp => 10#4
  | some .ospf => 11#4
  | some .l2tp => 12#4

/-- The strobe that an event raises (70_reset_and_hazards.md R186). -/
def Strobes.raise (e : Event) (x : Strobes) : Strobes :=
  match e with
  | .count _ => { x with cntValid := true }
  | .record _ _ _ _ _ => { x with recValid := true }
  | .finish _ _ => { x with endValid := true }

/-- The result registers that `RecEv(idx, dlen, stat, plen, hdr)` leaves (10_state.md R28, R30): the header
registers are cleared when the header is absent. -/
def resultOf (idx dlen : U32) (stat : RecStat) (plen : U32) (hdr : Option IPv4Header) : ResultFile :=
  { rIdx := idx
    rDlen := dlen
    rStat := stat
    rPlen := plen
    rHdrv := decide (stat = .ok)
    hdr := hdr.getD .zero }

end Sys2Proof.Machine
end

