-- ==== Sys2Proof/Machine/Operands.lean ====
section
/-!
DEFINITION. The operand forms: the lanes of the 4-byte count fields (30_encoding.md R64), the sub-byte and
multi-byte header fields (30_encoding.md R65 to R67, 41_ipv4_fields.md R101 to R112), and the decoded header
(41_ipv4_fields.md R100).
-/

namespace Sys2Proof.Machine

/-! ## Lanes of a count field -/

/-- The lowest bit of `lane(k)` (30_encoding.md R64). -/
def laneShift (e : Endian) (k : Nat) : Nat :=
  match e with
  | .le => 8 * k
  | .be => 24 - 8 * k

/-- `R[lane(k)] <- b`: the other 24 bits are unchanged (30_encoding.md R64). -/
def setLane (e : Endian) (k : Nat) (b : Byte) (r : U32) : U32 :=
  (r &&& ~~~(0xFF#32 <<< laneShift e k)) ||| (b.setWidth 32 <<< laneShift e k)

/-! ## Header fields -/

/-- `be16` (30_encoding.md R65). -/
def be16 (h l : Byte) : U16 := (h.setWidth 16 <<< 8) ||| l.setWidth 16

/-- `version = b0 >> 4` (R101). -/
def versionOf (b0 : Byte) : BitVec 4 := (b0 >>> 4).setWidth 4

/-- `headerLength = b0 & 0x0F` (R102). -/
def headerLengthOf (b0 : Byte) : BitVec 4 := (b0 &&& 0x0F#8).setWidth 4

/-- `flags = b6 >> 5` (R106). -/
def flagsOf (b6 : Byte) : BitVec 3 := (b6 >>> 5).setWidth 3

/-- `fragmentOffset = ((b6 & 0x1F) << 8) | b7`, computed in 16 bits (R107). -/
def fragmentOffsetOf (b6 b7 : Byte) : BitVec 13 :=
  (((b6.setWidth 16 &&& 0x001F#16) <<< 8) ||| b7.setWidth 16).setWidth 13

/-- Four octets with the first in bits 31..24 (R111, R112; 10_state.md R28). -/
def addressOf (o0 o1 o2 o3 : Byte) : BitVec 32 := o0 ++ o1 ++ o2 ++ o3

/-- Octet `k` of an address, `k = 0` the first in payload order. -/
def octet (a : BitVec 32) (k : Nat) : Byte := a.extractLsb' (24 - 8 * k) 8

/-- `DECODE` (41_ipv4_fields.md R100), of the twenty bytes in payload order. -/
def headerOf (b : Nat → Byte) : IPv4Header :=
  { version := versionOf (b 0)
    headerLength := headerLengthOf (b 0)
    typeOfService := b 1
    totalLength := be16 (b 2) (b 3)
    identification := be16 (b 4) (b 5)
    flags := flagsOf (b 6)
    fragmentOffset := fragmentOffsetOf (b 6) (b 7)
    timeToLive := b 8
    protocol := b 9
    protocolName := protoName (b 9)
    headerChecksum := be16 (b 10) (b 11)
    sourceAddress := addressOf (b 12) (b 13) (b 14) (b 15)
    destinationAddress := addressOf (b 16) (b 17) (b 18) (b 19) }

end Sys2Proof.Machine
end

