-- ==== Sys2Proof/Machine/Ops.lean ====
section
/-!
DEFINITION. The operations that the meanings share: the payload buffer (20_memory.md R45, R46), the stream
(20_memory.md R44), the output of an event (10_state.md R29, R30), taking an error and going on after it
(60_exceptions.md R152 to R155, R161 to R166), and the parts of a step that complete a length field or a
record (40_framer.md R84, R87, R89).
-/

namespace Sys2Proof.Machine

/-- The result of one operation. -/
abbrev Result := Host.Outcome State Fault Refusal

/-! ## The payload buffer -/

/-- The canonical form: offsets strictly rising. No entry can equal what an unlisted offset reads as,
because an unlisted offset reads as no value. -/
def Memory.wf : Memory → Bool
  | [] => true
  | [_] => true
  | c :: d :: m => decide (c.1 < d.1) && Memory.wf (d :: m)

/-- The byte at an offset, absent where nothing of the current record is stored. -/
def Memory.read (m : Memory) (a : Nat) : Option Byte :=
  match m with
  | [] => none
  | c :: m => if c.1 = a then some c.2 else Memory.read m a

/-- Store one byte, keeping the offsets rising. -/
def Memory.write (m : Memory) (a : Nat) (b : Byte) : Memory :=
  match m with
  | [] => [(a, b)]
  | c :: m =>
    if a < c.1 then (a, b) :: c :: m
    else if a = c.1 then (a, b) :: m
    else c :: Memory.write m a b

/-- The `n` bytes from an offset on, lowest offset first, if all of them are stored. -/
def Memory.readMany (m : Memory) (a : Nat) : Nat → Option (List Byte)
  | 0 => some []
  | n + 1 =>
    match Memory.read m a, Memory.readMany m (a + 1) n with
    | some b, some bs => some (b :: bs)
    | _, _ => none

/-- `MemWrite(addr, 1, b)` (20_memory.md R46): an offset at or above `MAX_PAYLOAD` does not exist
(10_state.md R33). -/
def memWrite (a : Nat) (b : Byte) (s : State) : Option State :=
  if a < s.params.maxPayload then some { s with pbuf := s.pbuf.write a b } else none

/-- `MemRead(addr, n)` (20_memory.md R45): defined only within the filled prefix. -/
def memRead (a n : Nat) (s : State) : Option (List Byte) :=
  if a + n ≤ s.rcvd.toNat then s.pbuf.readMany a n else none

/-- The buffer becomes empty (10_state.md R32). -/
def clearBuffer (s : State) : State := { s with pbuf := [] }

/-! ## The stream -/

/-- `StreamNext()` (20_memory.md R44): the symbol at the cursor. The cursor moves in `beginStep`. -/
def nextSymbol (s : State) : Symbol :=
  match s.stream[s.cur]? with
  | some b => .byte b
  | none => .eos

/-- Every strobe inactive (70_reset_and_hazards.md R187). -/
def quiet (s : State) : State := { s with strobe := {} }

/-- The part that every operation on an input symbol begins with: the strobes of the step before go
inactive, and a byte is consumed (10_state.md R20). -/
def beginStep (sym : Symbol) (s : State) : State :=
  match sym with
  | .byte _ => { quiet s with cur := s.cur + 1 }
  | .eos => quiet s

/-! ## Events -/

/-- `emit Ev` (10_state.md R29). -/
def emit (e : Event) (s : State) : State :=
  { s with events := s.events ++ [e], strobe := s.strobe.raise e }

/-- `RecEv` and the result registers together (10_state.md R30). The index is `PIDX`. -/
def report (dlen : U32) (stat : RecStat) (plen : U32) (hdr : Option IPv4Header) (s : State) : State :=
  emit (.record s.pidx dlen stat plen hdr) { s with res := resultOf s.pidx dlen stat plen hdr }

/-- The end of the run: `S_END`, the end status, `EndEv` (10_state.md R24, R30). -/
def endRun (code : EndCode) (idx : U32) (s : State) : State :=
  emit (.finish code idx) { s with st := .sEnd, endCode := code, endIdx := idx }

/-! ## Taking an error, and going on after it -/

/-- `next_record()` (40_framer.md R89), which is also how the run continues after a per-record error
(60_exceptions.md R165). -/
def toNextRecord (s : State) : State :=
  if s.pidx = s.pcount then endRun .ok s.pcount s
  else { s with pidx := s.pidx + 1#32, st := .sLen }

/-- `raise TruncatedStreamError` (60_exceptions.md R152). -/
def raiseTruncatedStream (s : State) : State := endRun .truncatedStream 0#32 s

/-- `raise TruncatedRecordError(PIDX)` (60_exceptions.md R153). -/
def raiseTruncatedRecord (s : State) : State := endRun .truncatedRecord s.pidx s

/-- `raise RecordTooLargeError` (60_exceptions.md R154), for a declared length `d`. -/
def raiseRecordTooLarge (d : U32) (s : State) : State :=
  { report d .recordTooLarge 0#32 none s with st := .sDrain }

/-- `raise HeaderTooShortError` (60_exceptions.md R155), for a payload of `plen` bytes. -/
def raiseHeaderTooShort (plen : U32) (s : State) : State :=
  toNextRecord (report s.dlen .headerTooShort plen none s)

/-! ## Completing a record and a length field -/

/-- `complete(plen)` (40_framer.md R87). -/
def completeRecord (plen : U32) (s : State) : Result :=
  if plen.toNat < hdrLen then .next (raiseHeaderTooShort plen s)
  else
    match memRead 0 hdrLen s with
    | none => .fault .bufferNotFilled
    | some bs => .next (toNextRecord (report s.dlen .ok plen (some (headerOf fun n => bs.getD n 0#8)) s))

/-- `dispatch(d)` (40_framer.md R84): the capacity is checked first (60_exceptions.md R158). -/
def dispatchLength (d : U32) (s : State) : Result :=
  if s.params.maxPayload < d.toNat then .next (raiseRecordTooLarge d s)
  else if d = 0#32 then completeRecord 0#32 s
  else .next { s with st := .sPayload }

/-! ## Reset and the operations that only compute -/

/-- Reset (70_reset_and_hazards.md R180, R182) with a stream presented from its first byte (R185): every
register of the block at its reset value, no event of the new run yet. The build parameters, and what the
caller still asks for, are not the block's. -/
def resetOn (source : List Byte) (s : State) : State :=
  { State.reset with params := s.params, stream := source, calls := s.calls, ret := s.ret }

/-- An operation that only computes gives its value to its caller and touches nothing of the block
(41_ipv4_fields.md R100, 43_formatting.md R140). -/
def give (v : Value) (s : State) : Result := .next { s with ret := v }

end Sys2Proof.Machine
end

