-- ==== Sys2Proof/Machine/Format.lean ====
section
/-!
DEFINITION. The numeric formatting policy (43_formatting.md): pure functions of the sink, which read and
write no state of the block (R140), and the operations that give their value to the caller. DEDUCED operand
widths: log entry 16. DESIGN CHOICE for operands outside a rule's domain: log entry 12.
-/

namespace Sys2Proof.Machine

/-! ## The functions -/

/-- The digits below ten, which have no case. -/
def decimalDigits : List Char := ['0', '1', '2', '3', '4', '5', '6', '7', '8', '9']

/-- The sixteen hexadecimal digits in the case `HEX_CASE` (00_scope.md R9). -/
def hexDigits : HexCase → List Char
  | .upper => decimalDigits ++ ['A', 'B', 'C', 'D', 'E', 'F']
  | .lower => decimalDigits ++ ['a', 'b', 'c', 'd', 'e', 'f']

/-- The digit of `d`. -/
def digitOf (digits : List Char) (d : Nat) : Char := digits.getD d '0'

/-- The lowest `k` hexadecimal digits of a value, most significant first. -/
def hexText (c : HexCase) : Nat → Nat → Text
  | 0, _ => []
  | k + 1, v => hexText c k (v / 16) ++ [digitOf (hexDigits c) (v % 16)]

/-- `FMT_HEX(v, n)` (R141): `0x` and exactly `2n` digits; the `x` is lower case in both settings
(95_test_vectors.md section 2.4). -/
def fmtHex (c : HexCase) (v n : Nat) : Text := '0' :: 'x' :: hexText c (2 * n) v

/-- The decimal digits of a value, most significant first, with no leading zero but for 0 itself; `fuel`
bounds the number of digits. -/
def decText : Nat → Nat → Text
  | 0, _ => []
  | fuel + 1, v =>
    if v < 10 then [digitOf decimalDigits v]
    else decText fuel (v / 10) ++ [digitOf decimalDigits (v % 10)]

/-- `FMT_DEC(v)` (R142): the shortest string of digits that denotes `v`. -/
def fmtDec (v : Nat) : Text := decText (v + 1) v

/-- The two fields that have the zero-literal format (R143). -/
def hasZeroLiteral : Field → Bool
  | .identification => true
  | .fragmentOffset => true
  | .version => false
  | .headerLength => false
  | .typeOfService => false
  | .totalLength => false
  | .flags => false
  | .timeToLive => false
  | .protocol => false
  | .headerChecksum => false
  | .sourceAddress => false
  | .destinationAddress => false

/-- The hexadecimal string of `FMT_FIELD` (R143), for a field of `n` carrier bytes. -/
def fieldHex (c : HexCase) (f : Field) (v n : Nat) : Text :=
  if hasZeroLiteral f && v == 0 then ['0', 'x', '0'] else fmtHex c v n

/-- `FMT_FIELD(f, v)` (R143), absent for the two addresses (R144). -/
def fmtField (c : HexCase) (f : Field) (v : Nat) : Option (Text × Text) :=
  (carrierBytes f).map fun n => (fieldHex c f v n, fmtDec v)

/-- `FMT_ADDR(o0, o1, o2, o3)` (R146). -/
def fmtAddr (o0 o1 o2 o3 : Byte) : Text :=
  fmtDec o0.toNat ++ '.' :: fmtDec o1.toNat ++ '.' :: fmtDec o2.toNat ++ '.' :: fmtDec o3.toNat

/-! ## The operations -/

/-- `FMT_HEX` (R141), for `n` = 1 or 2 and a value that fits `n` bytes. -/
def execFmtHex (v : U16) (n : Nat) (s : State) : Result :=
  if fitsCarrier v n then give (.text (fmtHex s.params.hexCase v.toNat n)) s
  else .refused .outsideDomain

/-- `FMT_DEC` (R142). -/
def execFmtDec (v : U32) (s : State) : Result := give (.text (fmtDec v.toNat)) s

/-- `FMT_FIELD` (R143), for a field with a carrier width (R144) and a value that fits it. -/
def execFmtField (f : Field) (v : U16) (s : State) : Result :=
  match carrierBytes f with
  | none => .refused .outsideDomain
  | some n =>
    if fitsCarrier v n then
      give (.texts (fieldHex s.params.hexCase f v.toNat n) (fmtDec v.toNat)) s
    else .refused .outsideDomain

/-- `FMT_ADDR` (R146). -/
def execFmtAddr (o0 o1 o2 o3 : Byte) (s : State) : Result := give (.text (fmtAddr o0 o1 o2 o3)) s

/-- `FMT_PROTO` (R147): `FMT_FIELD(protocol, p)` and the name, when there is one. -/
def execFmtProto (p : Byte) (s : State) : Result :=
  give (.protoTexts (fieldHex s.params.hexCase .protocol p.toNat 1) (fmtDec p.toNat) (protoName p)) s

end Sys2Proof.Machine
end

