-- ==== Sys2Proof/Machine/Framer.lean ====
section
/-!
DEFINITION. The packet-record framer (40_framer.md): `open`, `READ_COUNT`, the phases of `READ_RECORD`, and
the back edge of the run loop. DEDUCED that consuming the symbol is part of an operation that takes one: log
entry 18. DESIGN CHOICE for the parts of a step when asked for alone: log entry 19.
-/

namespace Sys2Proof.Machine

/-- `READ_COUNT` (40_framer.md R81): one symbol of the packet count. -/
def execReadCount (sym : Symbol) (s : State) : Result :=
  if s.st ≠ .sCount then .refused .notSelected
  else
    let s0 := beginStep sym s
    match sym with
    | .eos => .next (raiseTruncatedStream s0)
    | .byte b =>
      let n := setLane s.params.frameEndian s.bcnt.toNat b s.pcount
      let s1 := { s0 with pcount := n }
      if s.bcnt ≠ 3#2 then .next { s1 with bcnt := s.bcnt + 1#2 }
      else
        let s2 := emit (.count n) { s1 with bcnt := 0#2 }
        if n = 0#32 then .next (endRun .ok 0#32 s2)
        else .next { s2 with pidx := 1#32, st := .sLen }

/-- `READ_RECORD.LEN` (40_framer.md R83): one symbol of a declared length. -/
def execReadLen (sym : Symbol) (s : State) : Result :=
  if s.st ≠ .sLen then .refused .notSelected
  else
    let s0 := beginStep sym s
    match sym with
    | .eos => .next (raiseTruncatedRecord s0)
    | .byte b =>
      let d := setLane s.params.frameEndian s.bcnt.toNat b s.dlen
      let s1 := { s0 with dlen := d }
      if s.bcnt ≠ 3#2 then .next { s1 with bcnt := s.bcnt + 1#2 }
      else dispatchLength d (clearBuffer { s1 with bcnt := 0#2, rcvd := 0#32 })

/-- `READ_RECORD.dispatch` (40_framer.md R84). -/
def execDispatch (d : U32) (s : State) : Result := dispatchLength d s

/-- `READ_RECORD.PAYLOAD` (40_framer.md R85): one symbol of a payload that is buffered. -/
def execReadPayload (sym : Symbol) (s : State) : Result :=
  if s.st ≠ .sPayload then .refused .notSelected
  else
    let s0 := beginStep sym s
    match sym with
    | .eos => .next (raiseTruncatedRecord s0)
    | .byte b =>
      match memWrite s.rcvd.toNat b s0 with
      | none => .fault .bufferOverflow
      | some s1 =>
        let s2 := { s1 with rcvd := s.rcvd + 1#32 }
        if s.rcvd + 1#32 = s.dlen then completeRecord s.dlen s2 else .next s2

/-- `READ_RECORD.DRAIN` (40_framer.md R86): one symbol of a payload that is passed over. -/
def execReadDrain (sym : Symbol) (s : State) : Result :=
  if s.st ≠ .sDrain then .refused .notSelected
  else
    let s0 := beginStep sym s
    match sym with
    | .eos => .next (raiseTruncatedRecord s0)
    | .byte _ =>
      let s1 := { s0 with rcvd := s.rcvd + 1#32 }
      if s.rcvd + 1#32 = s.dlen then .next (toNextRecord s1) else .next s1

/-- `READ_RECORD.complete` (40_framer.md R87). -/
def execComplete (plen : U32) (s : State) : Result := completeRecord plen s

/-- `RUN.next_record` (40_framer.md R89). -/
def execNextRecord (s : State) : Result := .next (toNextRecord s)

/-- `open` (40_framer.md R80): its role is played by reset, which cannot fail; a source that cannot be
opened is the host's `IoError`, and the block sees no byte and emits no event (60_exceptions.md R151).
DESIGN CHOICE: log entry 10. -/
def execOpen (source : Option (List Byte)) (s : State) : Result :=
  match source with
  | some bs => give .stream (resetOn bs s)
  | none => give (.error .ioError) s

end Sys2Proof.Machine
end

