-- ==== Sys2Proof/Machine/Lookup.lean ====
section
/-!
DEFINITION. The thirteen cases of `PROTO_NAME` (42_protocol_lookup.md R120 to R133): each looks its value up
in the one table and gives the name, or its absence. The lookup writes no status and never fails.
-/

namespace Sys2Proof.Machine

/-- `PROTO_NAME(p)` (R120). -/
def lookUp (p : Byte) (s : State) : Result := give (.name (protoName p)) s

/-- `PROTO_NAME.ICMP` (R121). -/
def execProtoIcmp (s : State) : Result := lookUp (protoKey .icmp) s

/-- `PROTO_NAME.IGMP` (R122). -/
def execProtoIgmp (s : State) : Result := lookUp (protoKey .igmp) s

/-- `PROTO_NAME.TCP` (R123). -/
def execProtoTcp (s : State) : Result := lookUp (protoKey .tcp) s

/-- `PROTO_NAME.IGRP` (R124). -/
def execProtoIgrp (s : State) : Result := lookUp (protoKey .igrp) s

/-- `PROTO_NAME.UDP` (R125). -/
def execProtoUdp (s : State) : Result := lookUp (protoKey .udp) s

/-- `PROTO_NAME.GRE` (R126). -/
def execProtoGre (s : State) : Result := lookUp (protoKey .gre) s

/-- `PROTO_NAME.ESP` (R127). -/
def execProtoEsp (s : State) : Result := lookUp (protoKey .esp) s

/-- `PROTO_NAME.AH` (R128). -/
def execProtoAh (s : State) : Result := lookUp (protoKey .ah) s

/-- `PROTO_NAME.SKIP` (R129). -/
def execProtoSkip (s : State) : Result := lookUp (protoKey .skip) s

/-- `PROTO_NAME.EIGRP` (R130). -/
def execProtoEigrp (s : State) : Result := lookUp (protoKey .eigrp) s

/-- `PROTO_NAME.OSPF` (R131). -/
def execProtoOspf (s : State) : Result := lookUp (protoKey .ospf) s

/-- `PROTO_NAME.L2TP` (R132). -/
def execProtoL2tp (s : State) : Result := lookUp (protoKey .l2tp) s

/-- `PROTO_NAME.none` (R133): it applies only when no other row matches. -/
def execProtoNone (p : Byte) (s : State) : Result :=
  if (protoName p).isNone then lookUp p s else .refused .outsideDomain

end Sys2Proof.Machine
end

