-- ==== Sys2Proof/Machine/Parser.lean ====
section
/-!
DEFINITION. The IPv4 header parser (41_ipv4_fields.md): the twelve extractions, each in its carrier width
(10_state.md R28), and `DECODE`. They write no status and raise no error, so each gives its value to its
caller and leaves the block as it is (log entry 6).
-/

namespace Sys2Proof.Machine

/-- `version` (R101), carried in a `u8`. -/
def execVersion (b0 : Byte) (s : State) : Result := give (.u8 ((versionOf b0).setWidth 8)) s

/-- `headerLength` (R102), carried in a `u8`. -/
def execHeaderLength (b0 : Byte) (s : State) : Result := give (.u8 ((headerLengthOf b0).setWidth 8)) s

/-- `typeOfService` (R103). -/
def execTypeOfService (b1 : Byte) (s : State) : Result := give (.u8 b1) s

/-- `totalLength` (R104). -/
def execTotalLength (b2 b3 : Byte) (s : State) : Result := give (.u16 (be16 b2 b3)) s

/-- `identification` (R105). -/
def execIdentification (b4 b5 : Byte) (s : State) : Result := give (.u16 (be16 b4 b5)) s

/-- `flags` (R106), carried in a `u8`. -/
def execFlags (b6 : Byte) (s : State) : Result := give (.u8 ((flagsOf b6).setWidth 8)) s

/-- `fragmentOffset` (R107), carried in a `u16`. -/
def execFragmentOffset (b6 b7 : Byte) (s : State) : Result :=
  give (.u16 ((fragmentOffsetOf b6 b7).setWidth 16)) s

/-- `timeToLive` (R108). -/
def execTimeToLive (b8 : Byte) (s : State) : Result := give (.u8 b8) s

/-- `protocol` (R109): the number; the name is `PROTO_NAME`'s. -/
def execProtocol (b9 : Byte) (s : State) : Result := give (.u8 b9) s

/-- `headerChecksum` (R110). -/
def execHeaderChecksum (b10 b11 : Byte) (s : State) : Result := give (.u16 (be16 b10 b11)) s

/-- `sourceAddress` (R111): four octets in payload order. -/
def execSourceAddress (b12 b13 b14 b15 : Byte) (s : State) : Result := give (.octets b12 b13 b14 b15) s

/-- `destinationAddress` (R112): four octets in payload order. -/
def execDestinationAddress (b16 b17 b18 b19 : Byte) (s : State) : Result :=
  give (.octets b16 b17 b18 b19) s

/-- `DECODE` (R100), a total function of the twenty bytes. -/
def execDecodeHeader (h : Hdr) (s : State) : Result := give (.header (headerOf (hdrByte h))) s

end Sys2Proof.Machine
end

