-- ==== Sys2Proof/Machine/Dispatch.lean ====
section
/-!
DEFINITION. The one dispatch: an arm for each row of spec/opcode_table.json, in the table's order.
-/

namespace Sys2Proof.Machine

/-- What each instruction does. -/
def exec (i : Instr) (s : State) : Host.Outcome State Fault Refusal :=
  match i with
  | .version b0 => Sys2Proof.Machine.execVersion b0 s
  | .headerLength b0 => Sys2Proof.Machine.execHeaderLength b0 s
  | .typeOfService b1 => Sys2Proof.Machine.execTypeOfService b1 s
  | .totalLength b2 b3 => Sys2Proof.Machine.execTotalLength b2 b3 s
  | .identification b4 b5 => Sys2Proof.Machine.execIdentification b4 b5 s
  | .flags b6 => Sys2Proof.Machine.execFlags b6 s
  | .fragmentOffset b6 b7 => Sys2Proof.Machine.execFragmentOffset b6 b7 s
  | .timeToLive b8 => Sys2Proof.Machine.execTimeToLive b8 s
  | .protocol b9 => Sys2Proof.Machine.execProtocol b9 s
  | .headerChecksum b10 b11 => Sys2Proof.Machine.execHeaderChecksum b10 b11 s
  | .sourceAddress b12 b13 b14 b15 => Sys2Proof.Machine.execSourceAddress b12 b13 b14 b15 s
  | .destinationAddress b16 b17 b18 b19 => Sys2Proof.Machine.execDestinationAddress b16 b17 b18 b19 s
  | .decodeHeader h => Sys2Proof.Machine.execDecodeHeader h s
  | .protoIcmp => Sys2Proof.Machine.execProtoIcmp s
  | .protoIgmp => Sys2Proof.Machine.execProtoIgmp s
  | .protoTcp => Sys2Proof.Machine.execProtoTcp s
  | .protoIgrp => Sys2Proof.Machine.execProtoIgrp s
  | .protoUdp => Sys2Proof.Machine.execProtoUdp s
  | .protoGre => Sys2Proof.Machine.execProtoGre s
  | .protoEsp => Sys2Proof.Machine.execProtoEsp s
  | .protoAh => Sys2Proof.Machine.execProtoAh s
  | .protoSkip => Sys2Proof.Machine.execProtoSkip s
  | .protoEigrp => Sys2Proof.Machine.execProtoEigrp s
  | .protoOspf => Sys2Proof.Machine.execProtoOspf s
  | .protoL2tp => Sys2Proof.Machine.execProtoL2tp s
  | .protoNone p => Sys2Proof.Machine.execProtoNone p s
  | .readCount sym => Sys2Proof.Machine.execReadCount sym s
  | .readLen sym => Sys2Proof.Machine.execReadLen sym s
  | .dispatch d => Sys2Proof.Machine.execDispatch d s
  | .readPayload sym => Sys2Proof.Machine.execReadPayload sym s
  | .readDrain sym => Sys2Proof.Machine.execReadDrain sym s
  | .complete plen => Sys2Proof.Machine.execComplete plen s
  | .nextRecord => Sys2Proof.Machine.execNextRecord s
  | .openSource source => Sys2Proof.Machine.execOpen source s
  | .fmtHex v n => Sys2Proof.Machine.execFmtHex v n s
  | .fmtDec v => Sys2Proof.Machine.execFmtDec v s
  | .fmtField f v => Sys2Proof.Machine.execFmtField f v s
  | .fmtAddr o0 o1 o2 o3 => Sys2Proof.Machine.execFmtAddr o0 o1 o2 o3 s
  | .fmtProto p => Sys2Proof.Machine.execFmtProto p s

end Sys2Proof.Machine
end

