-- ==== Sys2Proof/Machine/Fetch.lean ====
section
/-!
DEFINITION. Where the next operation comes from: an operation the caller asks for, if there is one, and
otherwise the next input symbol in the phase `ST` (40_framer.md R90, R91); and how a word of
spec/opcode_table.json is placed there.
-/

namespace Sys2Proof.Machine

/-- What a step runs: nothing, leaving the state given, or a word at the state given. -/
inductive Fetched where
  /-- no operation: the strobes are inactive and every register holds -/
  | idle (s : State)
  /-- the operation `w`, to be run at `s` -/
  | run (w : OpWord) (s : State)
deriving DecidableEq, Repr

/-- The operation that an input symbol selects: the phase's, and none in `S_END`, where the block takes no
symbol (40_framer.md R93). -/
def fetchSymbol (sym : Symbol) (s : State) : Fetched :=
  if s.st = .sEnd then .idle (quiet s) else .run (symbolWord s.st sym) s

/-- A caller's operation first (log entry 8); otherwise the symbol at the cursor (40_framer.md R91). -/
def fetch (s : State) : Fetched :=
  match s.calls with
  | w :: rest => .run w { s with calls := rest }
  | [] => fetchSymbol (nextSymbol s) s

/-- A stream with the given bytes at the cursor, every other byte as it was; bytes before the cursor that the
stream does not have are zero, and are never read (20_memory.md R44). -/
def streamWith (s : State) (bs : List Byte) : List Byte :=
  (s.stream.take s.cur ++ List.replicate (s.cur - s.stream.length) 0#8) ++ bs ++
    s.stream.drop (s.cur + bs.length)

/-- A count field placed where `READ_COUNT` reads its first byte next. -/
def placeCount (w : Nat) (s : State) : State :=
  { s with
    st := .sCount
    bcnt := 0#2
    calls := []
    stream := streamWith s (u32Bytes s.params.frameEndian (BitVec.ofNat 32 w)) }

/-- A table word placed so that the very next step runs it: a count field in the stream, any other word as
the caller's next operation (log entry 9). -/
def placeTableWord (s : State) (nbits w : Nat) : State :=
  if nbits = 32 then placeCount w s
  else
    match tableWord s.params.frameEndian nbits w with
    | some ow => { s with calls := ow :: s.calls }
    | none => s

end Sys2Proof.Machine
end

