-- ==== Sys2Proof/Machine/Step.lean ====
section
/-!
DEFINITION. The step: fetch, decode, execute. With no operation asked for by the caller it is the total step
function of 40_framer.md R90 on the symbol at the cursor (R91).
-/

namespace Sys2Proof.Machine

/-- The decoded word's meaning; a word that the decoder rejects is refused by the decoder's reason. -/
def runWord (w : OpWord) (s : State) : Host.Outcome State Fault Refusal :=
  match decode w with
  | .ok i => exec i s
  | .error e => .refused (.undecodable e)

/-- What was fetched, run. -/
def runFetched (f : Fetched) : Host.Outcome State Fault Refusal :=
  match f with
  | .idle s => .next s
  | .run w s => runWord w s

/-- One step of the machine. -/
def step (s : State) : Host.Outcome State Fault Refusal := runFetched (fetch s)

/-- A word of spec/opcode_table.json stored where the next step fetches it. -/
def State.withFetchWord (s : State) (nbits w : Nat) : State := placeTableWord s nbits w

end Sys2Proof.Machine
end

