-- ==== Sys2Proof/Machine/Contract.lean ====
section
/-!
DEFINITION. The functional reading of the whole run (40_framer.md R94): the events of a stream as a function
of the stream and the parameters, with no registers and no steps. `Obligations` compares it with the fold of
the step.
-/

namespace Sys2Proof.Machine

/-- The first four bytes as a count field, and what follows them; absent when fewer than four are there. -/
def takeCount (e : Endian) : List Byte → Option (U32 × List Byte)
  | b0 :: b1 :: b2 :: b3 :: rest => some (u32Of e b0 b1 b2 b3, rest)
  | _ => none

/-- The report of a record that the stream holds completely and that is not too large. -/
def recordEvent (idx d : U32) (payload : List Byte) : Event :=
  if d.toNat < hdrLen then .record idx d .headerTooShort d none
  else .record idx d .ok d (some (headerOf fun n => payload.getD n 0#8))

/-- R94 (b) and (c): the records from index `idx` on, `left` of them, and the end of the run. -/
def recordsContract (p : Params) (n : U32) : Nat → U32 → List Byte → List Event
  | 0, _, _ => [.finish .ok n]
  | left + 1, idx, bytes =>
    match takeCount p.frameEndian bytes with
    | none => [.finish .truncatedRecord idx]
    | some (d, rest) =>
      let goOn := fun report =>
        if rest.length < d.toNat then [.finish .truncatedRecord idx]
        else report ++ recordsContract p n left (idx + 1#32) (rest.drop d.toNat)
      if p.maxPayload < d.toNat then .record idx d .recordTooLarge 0#32 none :: goOn []
      else goOn [recordEvent idx d (rest.take d.toNat)]

/-- R94: the events of the run over a whole stream. -/
def runContract (p : Params) (bytes : List Byte) : List Event :=
  match takeCount p.frameEndian bytes with
  | none => [.finish .truncatedStream 0#32]
  | some (n, rest) => .count n :: recordsContract p n n.toNat 1#32 rest

/-- R94 (b): how far the cursor moves over `left` records: past each of them, or to the end of the stream
when one is not all there. -/
def recordsConsumed (e : Endian) : Nat → List Byte → Nat
  | 0, _ => 0
  | left + 1, bytes =>
    match takeCount e bytes with
    | none => bytes.length
    | some (d, rest) =>
      if rest.length < d.toNat then bytes.length
      else 4 + d.toNat + recordsConsumed e left (rest.drop d.toNat)

/-- R94 with 40_framer.md R92: the bytes a run consumes; those after the last record are not read. -/
def consumedContract (p : Params) (bytes : List Byte) : Nat :=
  match takeCount p.frameEndian bytes with
  | none => bytes.length
  | some (n, rest) => 4 + recordsConsumed p.frameEndian n.toNat rest

/-- The state in which a run over `bytes` starts (40_framer.md R91): reset, with the stream presented. -/
def startOn (p : Params) (bytes : List Byte) : State := { State.reset with params := p, stream := bytes }

end Sys2Proof.Machine
end

