-- ==== Sys2Proof/Machine/Ports.lean ====
section
/-!
DEFINITION. The ports and the cycle-level reading (70_reset_and_hazards.md R186, R187): the symbol a cycle
offers, what a rising clock edge does, and the registered outputs. Nothing of the step function depends on
this file (92_eei_decisions.md D9). DEDUCED: log entry 14.
-/

namespace Sys2Proof.Machine

/-- The input ports of R186, sampled at one rising edge of `clk`. -/
structure PortsIn where
  /-- `rst` -/
  rst     : Bool
  /-- `in_valid` -/
  inValid : Bool
  /-- `in_data` -/
  inData  : Byte
  /-- `in_eos` -/
  inEos   : Bool
deriving DecidableEq, Repr

/-- `in_ready = (ST != S_END)` (R186). -/
def inReady (s : State) : Bool := decide (s.st ≠ .sEnd)

/-- The symbol a cycle offers (R187): a byte goes before end-of-stream, which counts only without one. -/
def offered (p : PortsIn) : Option Symbol :=
  if p.inValid then some (.byte p.inData) else if p.inEos then some .eos else none

/-- What a rising edge runs (R187): reset; a step on the offered symbol when the block is ready; otherwise
nothing, every register holding and the strobes inactive. -/
def edge (p : PortsIn) (s : State) : Fetched :=
  if p.rst then .idle (resetOn s.stream s)
  else
    match offered p with
    | some sym => fetchSymbol sym s
    | none => .idle (quiet s)

/-- One rising edge of `clk`. -/
def clockEdge (p : PortsIn) (s : State) : Host.Outcome State Fault Refusal := runFetched (edge p s)

/-- The output ports of R186, as bits. -/
structure PortsOut where
  inReady  : Bool
  cntValid : Bool
  cnt      : BitVec 32
  recValid : Bool
  recIdx   : BitVec 32
  recDlen  : BitVec 32
  recPlen  : BitVec 32
  recStat  : BitVec 3
  hdrValid : Bool
  hdrVer   : BitVec 4
  hdrIhl   : BitVec 4
  hdrTos   : BitVec 8
  hdrTtl   : BitVec 8
  hdrProto : BitVec 8
  hdrTlen  : BitVec 16
  hdrId    : BitVec 16
  hdrCsum  : BitVec 16
  hdrFlg   : BitVec 3
  hdrFoff  : BitVec 13
  hdrPname : BitVec 4
  hdrSrc   : BitVec 32
  hdrDst   : BitVec 32
  endValid : Bool
  done     : Bool
  endCode  : BitVec 3
  endIdx   : BitVec 32
deriving DecidableEq, Repr

/-- The outputs in the cycle after the edge that left `s` (R186). -/
def outputs (s : State) : PortsOut :=
  { inReady := inReady s
    cntValid := s.strobe.cntValid
    cnt := s.pcount
    recValid := s.strobe.recValid
    recIdx := s.res.rIdx
    recDlen := s.res.rDlen
    recPlen := s.res.rPlen
    recStat := s.res.rStat.code
    hdrValid := s.res.rHdrv
    hdrVer := s.res.hdr.version
    hdrIhl := s.res.hdr.headerLength
    hdrTos := s.res.hdr.typeOfService
    hdrTtl := s.res.hdr.timeToLive
    hdrProto := s.res.hdr.protocol
    hdrTlen := s.res.hdr.totalLength
    hdrId := s.res.hdr.identification
    hdrCsum := s.res.hdr.headerChecksum
    hdrFlg := s.res.hdr.flags
    hdrFoff := s.res.hdr.fragmentOffset
    hdrPname := nameCode s.res.hdr.protocolName
    hdrSrc := s.res.hdr.sourceAddress
    hdrDst := s.res.hdr.destinationAddress
    endValid := s.strobe.endValid
    done := decide (s.st = .sEnd)
    endCode := s.endCode.code
    endIdx := s.endIdx }

end Sys2Proof.Machine
end

