-- ==== Sys2Proof/Machine/Sink.lean ====
section
/-!
DEFINITION. The sink, outside the block: what the spec lets a model of the host be held to. The report of a
decoded header in field order (43_formatting.md R148), the two fixed fragments of the console output
(30_encoding.md R74) and the exit code (60_exceptions.md R173). No step runs any of it.
-/

namespace Sys2Proof.Machine

/-- The form in which one field of a decoded header is reported. -/
inductive FieldReport where
  /-- the strings of `FMT_FIELD` (R143) -/
  | numeric (hex dec : Text)
  /-- the string of `FMT_ADDR` (R146) -/
  | address (t : Text)
  /-- the strings and the optional name of `FMT_PROTO` (R147) -/
  | proto (hex dec : Text) (n : Option ProtoName)
deriving DecidableEq, Repr

/-- The report of a numeric field of `n` carrier bytes. -/
def numericReport (c : HexCase) (f : Field) (v n : Nat) : FieldReport :=
  .numeric (fieldHex c f v n) (fmtDec v)

/-- The report of an address. -/
def addressReport (a : BitVec 32) : FieldReport :=
  .address (fmtAddr (octet a 0) (octet a 1) (octet a 2) (octet a 3))

/-- One field of a decoded header, as the sink reports it (R143 to R147). -/
def fieldReport (c : HexCase) (h : IPv4Header) : Field → FieldReport
  | .version => numericReport c .version h.version.toNat 1
  | .headerLength => numericReport c .headerLength h.headerLength.toNat 1
  | .typeOfService => numericReport c .typeOfService h.typeOfService.toNat 1
  | .totalLength => numericReport c .totalLength h.totalLength.toNat 2
  | .identification => numericReport c .identification h.identification.toNat 2
  | .flags => numericReport c .flags h.flags.toNat 1
  | .fragmentOffset => numericReport c .fragmentOffset h.fragmentOffset.toNat 2
  | .timeToLive => numericReport c .timeToLive h.timeToLive.toNat 1
  | .protocol => .proto (fieldHex c .protocol h.protocol.toNat 1) (fmtDec h.protocol.toNat) h.protocolName
  | .headerChecksum => numericReport c .headerChecksum h.headerChecksum.toNat 2
  | .sourceAddress => addressReport h.sourceAddress
  | .destinationAddress => addressReport h.destinationAddress

/-- The field order of R148. -/
def fieldOrder : List Field :=
  [.version, .headerLength, .typeOfService, .totalLength, .identification, .flags, .fragmentOffset,
   .timeToLive, .protocol, .headerChecksum, .sourceAddress, .destinationAddress]

/-- The report of a decoded header: one entry per field, in the order of R148. -/
def headerReport (c : HexCase) (h : IPv4Header) : List (Field × FieldReport) :=
  fieldOrder.map fun f => (f, fieldReport c h f)

/-- The header line `==== File <path> contains <N> Packets.` (30_encoding.md R74). -/
def countLine (path : Text) (n : U32) : Text :=
  "==== File ".toList ++ path ++ " contains ".toList ++ fmtDec n.toNat ++ " Packets.".toList

/-- What a record's block begins with, `==>Packet <i>` (30_encoding.md R74). -/
def packetLine (idx : U32) : Text := "==>Packet ".toList ++ fmtDec idx.toNat

/-- The text of a protocol name (42_protocol_lookup.md R120: the exact upper-case strings). -/
def protoText : ProtoName → Text
  | .icmp => ['I', 'C', 'M', 'P']
  | .igmp => ['I', 'G', 'M', 'P']
  | .tcp => ['T', 'C', 'P']
  | .igrp => ['I', 'G', 'R', 'P']
  | .udp => ['U', 'D', 'P']
  | .gre => ['G', 'R', 'E']
  | .esp => ['E', 'S', 'P']
  | .ah => ['A', 'H']
  | .skip => ['S', 'K', 'I', 'P']
  | .eigrp => ['E', 'I', 'G', 'R', 'P']
  | .ospf => ['O', 'S', 'P', 'F']
  | .l2tp => ['L', '2', 'T', 'P']

/-- The statuses of the records reported in a run, in order. -/
def recordStats : List Event → List RecStat
  | [] => []
  | .record _ _ stat _ _ :: es => stat :: recordStats es
  | .count _ :: es => recordStats es
  | .finish _ _ :: es => recordStats es

/-- The exit code of a host whose source could not be opened (60_exceptions.md R173). -/
def ioErrorExit : Nat := 1

/-- The exit code of a host after a run that ended with `code` and reported `es` (60_exceptions.md R173):
1 when the packet count could not be read, 0 on success, and left open otherwise
(91_not_in_source.md N11). -/
def exitCode (code : EndCode) (es : List Event) : Nat :=
  match code with
  | .truncatedStream => 1
  | .truncatedRecord => Config.exitCodeLeftOpen 3 ((recordStats es).map fun x => x.code.toNat)
  | .ok =>
    if (recordStats es).all (fun x => decide (x = .ok)) then 0
    else Config.exitCodeLeftOpen 0 ((recordStats es).map fun x => x.code.toNat)

end Sys2Proof.Machine
end

