-- ==== Sys2Proof/Safety.lean ====
section
/-!
DEFINITION. What counts as a safe state and a safe run: the invariant of 10_state.md R35 with the bounds of
R13, R14 and R33, and the agreement of events and registers (R30). `Obligations` states that every step keeps
them.
-/

namespace Sys2Proof.Machine

/-! ## What has been reported -/

/-- The indices of the record events, in order. -/
def recordIndices : List Event → List Nat
  | [] => []
  | .record idx _ _ _ _ :: es => idx.toNat :: recordIndices es
  | .count _ :: es => recordIndices es
  | .finish _ _ :: es => recordIndices es

/-- The counts announced, in order. -/
def announcedCounts : List Event → List U32
  | [] => []
  | .count n :: es => n :: announcedCounts es
  | .record _ _ _ _ _ :: es => announcedCounts es
  | .finish _ _ :: es => announcedCounts es

/-- The ends reported, in order. -/
def reportedEnds : List Event → List (EndCode × U32)
  | [] => []
  | .finish code idx :: es => (code, idx) :: reportedEnds es
  | .count _ :: es => reportedEnds es
  | .record _ _ _ _ _ :: es => reportedEnds es

/-- The result registers after some events, from what they were before (10_state.md R28, R30). -/
def resultAfter (r : ResultFile) : List Event → ResultFile
  | [] => r
  | .record idx dlen stat plen hdr :: es => resultAfter (resultOf idx dlen stat plen hdr) es
  | .count _ :: es => resultAfter r es
  | .finish _ _ :: es => resultAfter r es

/-- The end status registers after some events, from what they were before (10_state.md R24, R30). -/
def endAfter (r : EndCode × U32) : List Event → EndCode × U32
  | [] => r
  | .finish code idx :: es => endAfter (code, idx) es
  | .count _ :: es => endAfter r es
  | .record _ _ _ _ _ :: es => endAfter r es

/-! ## The buffer -/

/-- The buffer is in its canonical form and within its capacity (10_state.md R33). -/
def BufferOk (s : State) : Prop := s.pbuf.wf = true ∧ ∀ c ∈ s.pbuf, c.1 < s.params.maxPayload

/-- The buffer holds exactly the offsets below the fill level (10_state.md R14, R32). -/
def BufferFilled (s : State) : Prop := s.pbuf.map Prod.fst = List.range s.rcvd.toNat

/-! ## The invariant of 10_state.md R35 -/

/-- R35 in every phase, for a block of which its caller asks nothing by name. -/
structure Inv (s : State) : Prop where
  /-- no operation is asked for by name -/
  noCalls : s.calls = []
  /-- R33 -/
  buffer : BufferOk s
  /-- the end is reported, once, exactly in `S_END` (R29), with the end status registers saying the same -/
  ends : reportedEnds s.events = if s.st = .sEnd then [(s.endCode, s.endIdx)] else []
  /-- R29: the count is announced at most once, and `PCOUNT` holds it from then on (R30) -/
  counts : announcedCounts s.events = [] ∨ announcedCounts s.events = [s.pcount]
  /-- R24: written once, in the step that enters `S_END` -/
  endStatus : s.st ≠ .sEnd → s.endCode = .ok ∧ s.endIdx = 0#32
  /-- R35 item 2 -/
  inCount : s.st = .sCount → s.pidx = 0#32 ∧ s.rcvd = 0#32 ∧ s.events = []
  /-- R35 item 3, R13 -/
  inRecord : s.st = .sLen ∨ s.st = .sPayload ∨ s.st = .sDrain →
    1 ≤ s.pidx.toNat ∧ s.pidx.toNat ≤ s.pcount.toNat ∧
      announcedCounts s.events = [s.pcount] ∧ s.events.head? = some (.count s.pcount)
  /-- R35 items 4 and 6, R14 -/
  inPayload : s.st = .sPayload → s.bcnt = 0#2 ∧ 1 ≤ s.dlen.toNat ∧ s.dlen.toNat ≤ s.params.maxPayload ∧
    s.rcvd.toNat < s.dlen.toNat ∧ BufferFilled s
  /-- R35 items 5 and 6 -/
  inDrain : s.st = .sDrain → s.bcnt = 0#2 ∧ s.params.maxPayload < s.dlen.toNat ∧
    s.rcvd.toNat < s.dlen.toNat ∧ s.pbuf = [] ∧
      s.events.getLast? = some (.record s.pidx s.dlen .recordTooLarge 0#32 none)
  /-- R35 item 7, before the record of index `PIDX` is reported -/
  reported : s.st = .sLen ∨ s.st = .sPayload → recordIndices s.events = List.range' 1 (s.pidx.toNat - 1)
  /-- R35 item 7, after a record that is too large is reported -/
  reportedDrain : s.st = .sDrain → recordIndices s.events = List.range' 1 s.pidx.toNat
  /-- R35 item 8 -/
  allReported : s.st = .sEnd → s.endCode = .ok → recordIndices s.events = List.range' 1 s.pcount.toNat
  /-- R152: a run whose count is truncated reports nothing else -/
  truncatedEarly : s.st = .sEnd → s.endCode = .truncatedStream → s.events = [.finish .truncatedStream 0#32]
  /-- R29: the end is the last event of the run -/
  endLast : s.st = .sEnd → s.events.getLast? = some (.finish s.endCode s.endIdx)

/-- R30: the registers say what the events said, from the reset values on. -/
structure Mirror (s : State) : Prop where
  results : s.res = resultAfter .zero s.events
  ends : (s.endCode, s.endIdx) = endAfter (.ok, 0#32) s.events

/-! ## What an instruction completes -/

/-- `READ_COUNT` of the last byte of the count (40_framer.md R81). -/
def LastCountByte (i : Instr) (s : State) : Prop := s.bcnt = 3#2 ∧ ∃ b, i = .readCount (.byte b)

/-- `READ_RECORD.LEN` of the last byte of a declared length `d` (40_framer.md R83). -/
def LastLengthByte (d : U32) (i : Instr) (s : State) : Prop :=
  s.bcnt = 3#2 ∧ ∃ b, i = .readLen (.byte b) ∧ d = setLane s.params.frameEndian 3 b s.dlen

/-- A declared length `d` is dispatched (40_framer.md R83, R84). -/
def DispatchesLength (d : U32) (i : Instr) (s : State) : Prop := i = .dispatch d ∨ LastLengthByte d i s

/-- A buffered record completes: `complete` itself, an empty record, or the last payload byte
(40_framer.md R84, R85, R87). -/
def CompletesRecord (i : Instr) (s : State) : Prop :=
  (∃ plen, i = .complete plen) ∨ DispatchesLength 0#32 i s ∨
    (s.rcvd + 1#32 = s.dlen ∧ ∃ b, i = .readPayload (.byte b))

/-- A record is reported: it completes, or its length is above the capacity (40_framer.md R84, R87). -/
def ReportsRecord (i : Instr) (s : State) : Prop :=
  CompletesRecord i s ∨ ∃ d, s.params.maxPayload < d.toNat ∧ DispatchesLength d i s

/-- `next_record()` is the instruction or the end of it: a record completes, or its last byte is drained
(40_framer.md R86, R87, R89). -/
def ReachesNextRecord (i : Instr) (s : State) : Prop :=
  i = .nextRecord ∨ CompletesRecord i s ∨ (s.rcvd + 1#32 = s.dlen ∧ ∃ b, i = .readDrain (.byte b))

/-- The four operations on the end of the stream (60_exceptions.md R152, R153). -/
def MeetsEndOfStream (i : Instr) : Prop :=
  i = .readCount .eos ∨ i = .readLen .eos ∨ i = .readPayload .eos ∨ i = .readDrain .eos

/-! ## Runs and observations -/

/-- Several instructions in order, stopping at the first fault or refusal. -/
def execAll : List Instr → State → Result
  | [], s => .next s
  | i :: is, s =>
    match exec i s with
    | .next t => execAll is t
    | .fault r => .fault r
    | .refused r => .refused r

/-- The next state, if there is one. -/
def nextState? : Result → Option State
  | .next s => some s
  | .fault _ => none
  | .refused _ => none

/-- The value of digits, most significant first, in a list of digit characters whose length is the base. -/
def digitsValue (digits : List Char) (t : Text) : Nat :=
  t.foldl (fun a c => a * digits.length + digits.idxOf c) 0

/-- The instructions that only compute: the extractions, `DECODE`, `PROTO_NAME` and the formatting. -/
def onlyComputes : Instr → Bool
  | .readCount _ => false
  | .readLen _ => false
  | .dispatch _ => false
  | .readPayload _ => false
  | .readDrain _ => false
  | .complete _ => false
  | .nextRecord => false
  | .openSource _ => false
  | .version _ => true
  | .headerLength _ => true
  | .typeOfService _ => true
  | .totalLength _ _ => true
  | .identification _ _ => true
  | .flags _ => true
  | .fragmentOffset _ _ => true
  | .timeToLive _ => true
  | .protocol _ => true
  | .headerChecksum _ _ => true
  | .sourceAddress _ _ _ _ => true
  | .destinationAddress _ _ _ _ => true
  | .decodeHeader _ => true
  | .protoIcmp => true
  | .protoIgmp => true
  | .protoTcp => true
  | .protoIgrp => true
  | .protoUdp => true
  | .protoGre => true
  | .protoEsp => true
  | .protoAh => true
  | .protoSkip => true
  | .protoEigrp => true
  | .protoOspf => true
  | .protoL2tp => true
  | .protoNone _ => true
  | .fmtHex _ _ => true
  | .fmtDec _ => true
  | .fmtField _ _ => true
  | .fmtAddr _ _ _ _ => true
  | .fmtProto _ => true

end Sys2Proof.Machine
end

