-- ==== Sys2Proof/Certificates/Slice0/Obligations.lean ====
section
/-!
DEFINITION. The statements for the provers. Each says what the block does, from a numbered rule of the spec
where its entry in OBLIGATIONS.json is 'stated'; where it rests on a choice of the model it names the log
entry. A statement over all states is a statement over all values of the build parameters.
-/

open Sys2Proof Sys2Proof.Machine

/-! ## Reset -/

/-- R180: every register at its reset value, the buffer empty, the cursor at 0, no strobe and no event. -/
def Obligations.ResetValues : Prop :=
  State.reset.st = .sCount ∧ State.reset.bcnt = 0#2 ∧ State.reset.pcount = 0#32 ∧ State.reset.dlen = 0#32 ∧
  State.reset.pidx = 0#32 ∧ State.reset.rcvd = 0#32 ∧ State.reset.endCode.code = 0#3 ∧ State.reset.endIdx = 0#32 ∧
  State.reset.res.rIdx = 0#32 ∧ State.reset.res.rDlen = 0#32 ∧ State.reset.res.rStat.code = 0#3 ∧
  State.reset.res.rPlen = 0#32 ∧ State.reset.res.rHdrv = false ∧
  State.reset.res.hdr.version = 0#4 ∧ State.reset.res.hdr.headerLength = 0#4 ∧
  State.reset.res.hdr.typeOfService = 0#8 ∧ State.reset.res.hdr.totalLength = 0#16 ∧
  State.reset.res.hdr.identification = 0#16 ∧ State.reset.res.hdr.flags = 0#3 ∧
  State.reset.res.hdr.fragmentOffset = 0#13 ∧ State.reset.res.hdr.timeToLive = 0#8 ∧
  State.reset.res.hdr.protocol = 0#8 ∧ nameCode State.reset.res.hdr.protocolName = 0#4 ∧
  State.reset.res.hdr.headerChecksum = 0#16 ∧ State.reset.res.hdr.sourceAddress = 0#32 ∧
  State.reset.res.hdr.destinationAddress = 0#32 ∧
  State.reset.pbuf = [] ∧ State.reset.cur = 0 ∧
  State.reset.strobe = { cntValid := false, recValid := false, endValid := false } ∧
  State.reset.events = []

/-- R182: a reset edge, whatever the phase and whatever else the cycle offers, puts every register of the
block into its reset value and emits nothing for the run it abandons. -/
def Obligations.ResetEdgeAbandonsRun : Prop :=
  ∀ (p : PortsIn) (s : State), p.rst = true →
    clockEdge p s = .next
      { s with cur := 0, st := .sCount, bcnt := 0#2, pcount := 0#32, dlen := 0#32, pidx := 0#32, rcvd := 0#32
               endCode := .ok, endIdx := 0#32, pbuf := [], res := .zero, strobe := {}, events := [] }

/-! ## READ_COUNT -/

/-- R81: a byte of the count that is not the last is written to its lane and nothing is reported;
the last byte announces the count and either ends the run or starts record 1; at the end of the stream the
run ends as truncated, no byte is consumed, and `PCOUNT` keeps what was written. -/
def Obligations.ReadCountStep : Prop :=
  ∀ (s : State), s.st = .sCount →
    (∀ b, s.bcnt ≠ 3#2 → exec (.readCount (.byte b)) s = .next
      { s with cur := s.cur + 1, strobe := {}, bcnt := s.bcnt + 1#2
               pcount := setLane s.params.frameEndian s.bcnt.toNat b s.pcount }) ∧
    (∀ b n, s.bcnt = 3#2 → n = setLane s.params.frameEndian 3 b s.pcount →
      exec (.readCount (.byte b)) s = .next
        (if n = 0#32 then
          { s with cur := s.cur + 1, strobe := { cntValid := true, endValid := true }, bcnt := 0#2
                   pcount := 0#32, st := .sEnd, endCode := .ok, endIdx := 0#32
                   events := s.events ++ [.count 0#32, .finish .ok 0#32] }
        else
          { s with cur := s.cur + 1, strobe := { cntValid := true }, bcnt := 0#2
                   pcount := n, pidx := 1#32, st := .sLen, events := s.events ++ [.count n] })) ∧
    exec (.readCount .eos) s = .next
      { s with strobe := { endValid := true }, st := .sEnd, endCode := .truncatedStream, endIdx := 0#32
               events := s.events ++ [.finish .truncatedStream 0#32] }

/-- R64: the lane of byte `k` is 8 bits from bit `8k` under `LE` and from bit `24 - 8k` under `BE`; the byte
is written there and the other 24 bits are unchanged; four bytes in order leave `u32_of`, whatever the
register held before. -/
def Obligations.CountFieldLanes : Prop :=
  (∀ (k : Nat) (b : Byte) (r : U32), k < 4 →
    (setLane .le k b r).extractLsb' (8 * k) 8 = b ∧
    (setLane .be k b r).extractLsb' (24 - 8 * k) 8 = b ∧
    (∀ i, i < 8 * k ∨ 8 * k + 8 ≤ i → (setLane .le k b r).getLsbD i = r.getLsbD i) ∧
    (∀ i, i < 24 - 8 * k ∨ 32 - 8 * k ≤ i → (setLane .be k b r).getLsbD i = r.getLsbD i)) ∧
  (∀ (b0 b1 b2 b3 : Byte) (r : U32),
    setLane .le 3 b3 (setLane .le 2 b2 (setLane .le 1 b1 (setLane .le 0 b0 r))) = b3 ++ b2 ++ b1 ++ b0 ∧
    setLane .be 3 b3 (setLane .be 2 b2 (setLane .be 1 b1 (setLane .be 0 b0 r))) = b0 ++ b1 ++ b2 ++ b3)

/-- R41: the four bytes of a count field, taken one by one by `READ_COUNT` or `READ_RECORD.LEN`, leave the
number that `FRAME_ENDIAN` gives them, whatever the register held before. -/
def Obligations.CountFieldValue : Prop :=
  ∀ (s : State) (s0 s1 s2 s3 : Byte), s.bcnt = 0#2 →
    (s.st = .sCount → ∃ t, execAll [.readCount (.byte s0), .readCount (.byte s1), .readCount (.byte s2),
        .readCount (.byte s3)] s = .next t ∧ t.cur = s.cur + 4 ∧ t.bcnt = 0#2 ∧
      t.pcount.toNat = match s.params.frameEndian with
        | .le => s0.toNat + 256 * s1.toNat + 65536 * s2.toNat + 16777216 * s3.toNat
        | .be => 16777216 * s0.toNat + 65536 * s1.toNat + 256 * s2.toNat + s3.toNat) ∧
    (s.st = .sLen → ∃ t, execAll [.readLen (.byte s0), .readLen (.byte s1), .readLen (.byte s2),
        .readLen (.byte s3)] s = .next t ∧ t.cur = s.cur + 4 ∧ t.bcnt = 0#2 ∧
      t.dlen.toNat = match s.params.frameEndian with
        | .le => s0.toNat + 256 * s1.toNat + 65536 * s2.toNat + 16777216 * s3.toNat
        | .be => 16777216 * s0.toNat + 65536 * s1.toNat + 256 * s2.toNat + s3.toNat)

/-! ## READ_RECORD -/

/-- R83: a byte of a declared length that is not the last is written to its lane; the last one clears the
fill level and empties the buffer, and the step goes on as `dispatch` of the completed length says, to a next
state; at the end of the stream the run ends as truncated, with the index of the record. -/
def Obligations.ReadLenStep : Prop :=
  ∀ (s : State), s.st = .sLen →
    (∀ b, s.bcnt ≠ 3#2 → exec (.readLen (.byte b)) s = .next
      { s with cur := s.cur + 1, strobe := {}, bcnt := s.bcnt + 1#2
               dlen := setLane s.params.frameEndian s.bcnt.toNat b s.dlen }) ∧
    (∀ b d, s.bcnt = 3#2 → d = setLane s.params.frameEndian 3 b s.dlen →
      ∃ t, exec (.readLen (.byte b)) s = .next t ∧
        exec (.dispatch d)
          { s with cur := s.cur + 1, strobe := {}, bcnt := 0#2, dlen := d, rcvd := 0#32, pbuf := [] } =
            .next t) ∧
    exec (.readLen .eos) s = .next
      { s with strobe := { endValid := true }, st := .sEnd, endCode := .truncatedRecord, endIdx := s.pidx
               events := s.events ++ [.finish .truncatedRecord s.pidx] }

/-- R84 with R154: a length above the capacity is reported and drained, nothing of it is stored, and every
header register is cleared; a length of 0 completes the record in this step, as `complete(0)` does; any other
length, `MAX_PAYLOAD` included, starts the payload. That `dispatch` alone has a meaning on every state is the
model's choice (log entry 19), and so is that the strobe it raises joins those already active (log entry 3). -/
def Obligations.DispatchStep : Prop :=
  ∀ (s : State) (d : U32),
    (s.params.maxPayload < d.toNat → exec (.dispatch d) s = .next
      { s with st := .sDrain
               res := { rIdx := s.pidx, rDlen := d, rStat := .recordTooLarge, rPlen := 0#32, rHdrv := false
                        hdr := .zero }
               strobe := { s.strobe with recValid := true }
               events := s.events ++ [.record s.pidx d .recordTooLarge 0#32 none] }) ∧
    (d = 0#32 → ∃ t, exec (.dispatch d) s = .next t ∧ exec (.complete 0#32) s = .next t) ∧
    (d ≠ 0#32 → d.toNat ≤ s.params.maxPayload → exec (.dispatch d) s = .next { s with st := .sPayload })

/-- R85: a payload byte is stored at the fill level and counted; after the last one the step goes on as
`complete(DLEN)` says, which in a state of the invariant of R35 answers a next state; at the end of the stream
the run ends as truncated, with the index of the record. -/
def Obligations.PayloadStep : Prop :=
  ∀ (s : State), Inv s → s.st = .sPayload →
    (∀ b, s.rcvd + 1#32 ≠ s.dlen → exec (.readPayload (.byte b)) s = .next
      { s with cur := s.cur + 1, strobe := {}, rcvd := s.rcvd + 1#32, pbuf := s.pbuf.write s.rcvd.toNat b }) ∧
    (∀ b, s.rcvd + 1#32 = s.dlen → ∃ t, exec (.readPayload (.byte b)) s = .next t ∧
      exec (.complete s.dlen)
        { s with cur := s.cur + 1, strobe := {}, rcvd := s.dlen
                 pbuf := s.pbuf.write s.rcvd.toNat b } = .next t) ∧
    exec (.readPayload .eos) s = .next
      { s with strobe := { endValid := true }, st := .sEnd, endCode := .truncatedRecord, endIdx := s.pidx
               events := s.events ++ [.finish .truncatedRecord s.pidx] }

/-- R85 without the invariant: `READ_RECORD.PAYLOAD` stops, and stores nothing, at an offset that the buffer
does not have (R33; the stop is the model's, log entry 7). -/
def Obligations.PayloadStopsAtCapacity : Prop :=
  ∀ (s : State) (b : Byte), s.st = .sPayload →
    (s.params.maxPayload ≤ s.rcvd.toNat ↔ exec (.readPayload (.byte b)) s = .fault .bufferOverflow)

/-- R86: a byte of a record that is too large is counted and discarded; the last one ends the record, with no
second report; at the end of the stream the run ends as truncated, with the index of the record. -/
def Obligations.DrainStep : Prop :=
  ∀ (s : State), s.st = .sDrain →
    (∀ b, s.rcvd + 1#32 ≠ s.dlen → exec (.readDrain (.byte b)) s = .next
      { s with cur := s.cur + 1, strobe := {}, rcvd := s.rcvd + 1#32 }) ∧
    (∀ b, s.rcvd + 1#32 = s.dlen → s.pidx ≠ s.pcount → exec (.readDrain (.byte b)) s = .next
      { s with cur := s.cur + 1, strobe := {}, rcvd := s.dlen, pidx := s.pidx + 1#32, st := .sLen }) ∧
    (∀ b, s.rcvd + 1#32 = s.dlen → s.pidx = s.pcount → exec (.readDrain (.byte b)) s = .next
      { s with cur := s.cur + 1, strobe := { endValid := true }, rcvd := s.dlen, st := .sEnd
               endCode := .ok, endIdx := s.pcount, events := s.events ++ [.finish .ok s.pcount] }) ∧
    exec (.readDrain .eos) s = .next
      { s with strobe := { endValid := true }, st := .sEnd, endCode := .truncatedRecord, endIdx := s.pidx
               events := s.events ++ [.finish .truncatedRecord s.pidx] }

/-- R153: the stream ends while a record is incomplete, in its length, its payload or its drain. The run ends
with the index of that record; nothing else changes. -/
def Obligations.EndOfStreamTruncatesRecord : Prop :=
  ∀ (s : State) (i : Instr),
    (s.st = .sLen ∧ i = .readLen .eos) ∨ (s.st = .sPayload ∧ i = .readPayload .eos) ∨
      (s.st = .sDrain ∧ i = .readDrain .eos) →
    exec i s = .next
      { s with strobe := { endValid := true }, st := .sEnd, endCode := .truncatedRecord, endIdx := s.pidx
               events := s.events ++ [.finish .truncatedRecord s.pidx] }

/-- R87 with R155: a record shorter than 20 bytes is reported with no header and every header register is
cleared; a record of 20 bytes or more is reported with what `DECODE` gives for its first 20 bytes, which is
also what the header registers hold. Both go on as `next_record()`, to a next state. That `complete` alone has
a meaning on every state is the model's choice (log entry 19), and so is that the strobe it raises joins those
already active (log entry 3). -/
def Obligations.CompleteStep : Prop :=
  ∀ (s : State) (plen : U32),
    (plen.toNat < 20 →
      exec (.complete plen) s = exec .nextRecord
        { s with res := { rIdx := s.pidx, rDlen := s.dlen, rStat := .headerTooShort, rPlen := plen
                          rHdrv := false, hdr := .zero }
                 strobe := { s.strobe with recValid := true }
                 events := s.events ++ [.record s.pidx s.dlen .headerTooShort plen none] } ∧
      ∃ t, exec (.complete plen) s = .next t) ∧
    (∀ (bs : List Byte), 20 ≤ plen.toNat → 20 ≤ s.rcvd.toNat → bs.length = 20 →
      (∀ n, n < 20 → s.pbuf.read n = some (bs.getD n 0#8)) →
      ∃ h, exec (.decodeHeader (hdrOfBytes bs)) s = .next { s with ret := .header h } ∧
        exec (.complete plen) s = exec .nextRecord
          { s with res := { rIdx := s.pidx, rDlen := s.dlen, rStat := .ok, rPlen := plen, rHdrv := true
                            hdr := h }
                   strobe := { s.strobe with recValid := true }
                   events := s.events ++ [.record s.pidx s.dlen .ok plen (some h)] } ∧
        ∃ t, exec (.complete plen) s = .next t)

/-- R45: reading the buffer is defined only within the filled prefix. The model stops where it is not, which
no state of the invariant of R35 reaches (log entry 7). -/
def Obligations.CompleteStopsOnUnfilledBuffer : Prop :=
  ∀ (s : State) (plen : U32), 20 ≤ plen.toNat → (s.rcvd.toNat < 20 ∨ ∃ n, n < 20 ∧ s.pbuf.read n = none) →
    exec (.complete plen) s = .fault .bufferNotFilled

/-- R89: after the last record the run ends with the number of records; after any other, the next record's
length follows. That `next_record()` alone has a meaning on every state, `PIDX` above `PCOUNT` included, is the
model's choice (log entry 19), and so is that the strobe it raises joins those already active (log entry 3). -/
def Obligations.NextRecordAdvancesOrEnds : Prop :=
  ∀ (s : State),
    (s.pidx ≠ s.pcount → exec .nextRecord s = .next { s with pidx := s.pidx + 1#32, st := .sLen }) ∧
    (s.pidx = s.pcount → exec .nextRecord s = .next
      { s with st := .sEnd, endCode := .ok, endIdx := s.pcount
               strobe := { s.strobe with endValid := true }
               events := s.events ++ [.finish .ok s.pcount] })

/-- The model's meaning of `open` (log entry 10): a source that can be opened is presented to a block that
has just been reset; a source that cannot is the host's `IoError`, and the block is untouched. -/
def Obligations.OpenPresentsStreamOrFails : Prop :=
  ∀ (s : State) (bs : List Byte),
    exec (.openSource (some bs)) s = .next
      { s with stream := bs, cur := 0, st := .sCount, bcnt := 0#2, pcount := 0#32, dlen := 0#32, pidx := 0#32
               rcvd := 0#32, endCode := .ok, endIdx := 0#32, pbuf := [], res := .zero, strobe := {}, events := []
               ret := .stream } ∧
    exec (.openSource none) s = .next { s with ret := .error .ioError }

/-- The four operations that take a symbol are refused in a phase that does not select them (log entry 12:
the model's stop; R168: what can run is decided by `ST` alone). -/
def Obligations.PhaseSelectsSymbolOperation : Prop :=
  ∀ (s : State) (sym : Symbol),
    (s.st ≠ .sCount → exec (.readCount sym) s = .refused .notSelected) ∧
    (s.st ≠ .sLen → exec (.readLen sym) s = .refused .notSelected) ∧
    (s.st ≠ .sPayload → exec (.readPayload sym) s = .refused .notSelected) ∧
    (s.st ≠ .sDrain → exec (.readDrain sym) s = .refused .notSelected)

/-! ## The parser -/

/-- R101, R102, R106, R107: the fields narrower than their bytes, as arithmetic on the bytes, each carried
in a `u8` or a `u16`; nothing else changes. -/
def Obligations.NarrowFieldValues : Prop :=
  ∀ (s : State) (b0 b6 b7 : Byte),
    exec (.version b0) s = .next { s with ret := .u8 (BitVec.ofNat 8 (b0.toNat / 16)) } ∧
    exec (.headerLength b0) s = .next { s with ret := .u8 (BitVec.ofNat 8 (b0.toNat % 16)) } ∧
    exec (.flags b6) s = .next { s with ret := .u8 (BitVec.ofNat 8 (b6.toNat / 32)) } ∧
    exec (.fragmentOffset b6 b7) s =
      .next { s with ret := .u16 (BitVec.ofNat 16 (256 * (b6.toNat % 32) + b7.toNat)) }

/-- R104, R105, R110: the two-byte fields are big-endian, whatever `FRAME_ENDIAN` is; nothing else
changes. -/
def Obligations.TwoByteFieldValues : Prop :=
  ∀ (s : State) (h l : Byte),
    exec (.totalLength h l) s = .next { s with ret := .u16 (BitVec.ofNat 16 (256 * h.toNat + l.toNat)) } ∧
    exec (.identification h l) s = .next { s with ret := .u16 (BitVec.ofNat 16 (256 * h.toNat + l.toNat)) } ∧
    exec (.headerChecksum h l) s = .next { s with ret := .u16 (BitVec.ofNat 16 (256 * h.toNat + l.toNat)) }

/-- R103, R108, R109, R111, R112: the raw bytes, the number of the protocol, and the octets of the addresses in
payload order; nothing else changes. (R109's name and the packing of R111 and R112 are `DecodeTakesSlices`.) -/
def Obligations.RawFieldValues : Prop :=
  ∀ (s : State) (b0 b1 b2 b3 : Byte),
    exec (.typeOfService b0) s = .next { s with ret := .u8 b0 } ∧
    exec (.timeToLive b0) s = .next { s with ret := .u8 b0 } ∧
    exec (.protocol b0) s = .next { s with ret := .u8 b0 } ∧
    exec (.sourceAddress b0 b1 b2 b3) s = .next { s with ret := .octets b0 b1 b2 b3 } ∧
    exec (.destinationAddress b0 b1 b2 b3) s = .next { s with ret := .octets b0 b1 b2 b3 }

/-- R62: twenty bytes are taken as one 160-bit vector with byte `N` in bits `159 - 8N` to `152 - 8N`; every
vector decodes, and each field is the slice of it that the layout gives. -/
def Obligations.DecodeTakesSlices : Prop :=
  (∀ (bs : List Byte), bs.length = 20 → ∃ h, decode { sel := .header, bytes := bs } = .ok (.decodeHeader h) ∧
    ∀ n, n < 20 → h.extractLsb' (152 - 8 * n) 8 = bs.getD n 0#8) ∧
  ∀ (s : State) (h : Hdr),
    exec (.decodeHeader h) s = .next { s with ret := .header {
        version := h.extractLsb' 156 4
        headerLength := h.extractLsb' 152 4
        typeOfService := h.extractLsb' 144 8
        totalLength := h.extractLsb' 128 16
        identification := h.extractLsb' 112 16
        flags := h.extractLsb' 109 3
        fragmentOffset := h.extractLsb' 96 13
        timeToLive := h.extractLsb' 88 8
        protocol := h.extractLsb' 80 8
        protocolName := protoName (h.extractLsb' 80 8)
        headerChecksum := h.extractLsb' 64 16
        sourceAddress := h.extractLsb' 32 32
        destinationAddress := h.extractLsb' 0 32 } }

/-- 41_ipv4_fields.md section 4: the twelve fields, put back in order, are the header vector, so no bit is
lost and two headers with the same fields are the same. -/
def Obligations.FieldsDetermineHeader : Prop :=
  ∀ (s t : State) (h : Hdr) (d : IPv4Header), exec (.decodeHeader h) s = .next t → t.ret = .header d →
    h = d.version ++ d.headerLength ++ d.typeOfService ++ d.totalLength ++ d.identification ++ d.flags ++
      d.fragmentOffset ++ d.timeToLive ++ d.protocol ++ d.headerChecksum ++ d.sourceAddress ++
      d.destinationAddress

/-- R87: payload bytes at offsets 20 and above have no effect on what a complete record reports or leaves in
the registers; only bytes 0 to 19 of the buffer do. (That `complete` alone has a meaning on every state: log
entry 19.) -/
def Obligations.LaterBytesHaveNoEffect : Prop :=
  ∀ (s : State) (m : Memory) (plen : U32), (∀ a, a < 20 → s.pbuf.read a = m.read a) →
    (∀ t, exec (.complete plen) s = .next t → exec (.complete plen) { s with pbuf := m } =
      .next { t with pbuf := m })

/-- R190: no byte of an earlier record is left when a length field completes: two states that differ only in
what the buffer held go on to the same state. -/
def Obligations.NoStaleBytes : Prop :=
  ∀ (s : State) (m : Memory) (b : Byte), s.st = .sLen → s.bcnt = 3#2 →
    ∃ t, exec (.readLen (.byte b)) s = .next t ∧ exec (.readLen (.byte b)) { s with pbuf := m } = .next t ∧
      ∀ a, t.pbuf.read a = none

/-! ## The protocol-name lookup -/

/-- R121 to R132: each of the twelve values is recognised by its own row, which gives the name; the
`H_PNAME` code of that name. Nothing else changes. -/
def Obligations.NamedProtocols : Prop :=
  ∀ (s : State), ∀ r ∈ ([(1, .protoIcmp, .icmp, 1), (2, .protoIgmp, .igmp, 2), (6, .protoTcp, .tcp, 3),
      (9, .protoIgrp, .igrp, 4), (17, .protoUdp, .udp, 5), (47, .protoGre, .gre, 6),
      (50, .protoEsp, .esp, 7), (51, .protoAh, .ah, 8), (57, .protoSkip, .skip, 9),
      (88, .protoEigrp, .eigrp, 10), (89, .protoOspf, .ospf, 11), (115, .protoL2tp, .l2tp, 12)] :
      List (Byte × Instr × ProtoName × BitVec 4)),
    decode { sel := .proto8, bytes := [r.1] } = .ok r.2.1 ∧
    exec r.2.1 s = .next { s with ret := .name (some r.2.2.1) } ∧
    nameCode (some r.2.2.1) = r.2.2.2

/-- R133: every other value is recognised by the default row, which gives no name and code 0, and is no
error: nothing else changes, the record's status included; codes 13, 14 and 15 are never produced; the value
is still reported by `protocol`. -/
def Obligations.UnnamedProtocols : Prop :=
  ∀ (s : State) (p : Byte), p ∉ ([1, 2, 6, 9, 17, 47, 50, 51, 57, 88, 89, 115] : List Byte) →
    decode { sel := .proto8, bytes := [p] } = .ok (.protoNone p) ∧
    exec (.protoNone p) s = .next { s with ret := .name none } ∧
    nameCode none = 0#4 ∧
    (∀ n, (nameCode n).toNat ≤ 12) ∧
    exec (.protocol p) s = .next { s with ret := .u8 p }

/-! ## The formatting policy -/

/-- R141: `FMT_HEX` gives `0x` and exactly `2n` digits of the case `HEX_CASE`, which denote the value. -/
def Obligations.HexTextDenotesValue : Prop :=
  ∀ (s : State) (v : U16) (n : Nat), n = 1 ∨ n = 2 → v.toNat < 256 ^ n →
    ∃ ds, exec (.fmtHex v n) s = .next { s with ret := .text ('0' :: 'x' :: ds) } ∧
      ds.length = 2 * n ∧ digitsValue (hexDigits s.params.hexCase) ds = v.toNat ∧
      (∀ c ∈ ds, c ∈ hexDigits s.params.hexCase) ∧
      hexDigits .upper = ['0', '1', '2', '3', '4', '5', '6', '7', '8', '9', 'A', 'B', 'C', 'D', 'E', 'F'] ∧
      hexDigits .lower = ['0', '1', '2', '3', '4', '5', '6', '7', '8', '9', 'a', 'b', 'c', 'd', 'e', 'f']

/-- R142: `FMT_DEC` gives the shortest string of decimal digits that denotes the value: it denotes it, and
it begins with `0` only when it is `0`. -/
def Obligations.DecimalTextIsShortest : Prop :=
  ∀ (s : State) (v : U32),
    ∃ ds, exec (.fmtDec v) s = .next { s with ret := .text ds } ∧
      digitsValue ['0', '1', '2', '3', '4', '5', '6', '7', '8', '9'] ds = v.toNat ∧
      (∀ c ∈ ds, c ∈ ['0', '1', '2', '3', '4', '5', '6', '7', '8', '9']) ∧
      ds ≠ [] ∧ (ds.head? = some '0' → ds = ['0'])

/-- R143: the pair of strings of a field, with the carrier width R144 gives it, and the zero-literal
for the two fields that have it. -/
def Obligations.FieldTextHasZeroLiteral : Prop :=
  ∀ (s : State) (f : Field) (n : Nat) (v : U16),
    (f, n) ∈ ([(.version, 1), (.headerLength, 1), (.typeOfService, 1), (.totalLength, 2),
      (.identification, 2), (.flags, 1), (.fragmentOffset, 2), (.timeToLive, 1), (.protocol, 1),
      (.headerChecksum, 2)] : List (Field × Nat)) →
    v.toNat < 256 ^ n →
    ∃ hex dec, exec (.fmtField f v) s = .next { s with ret := .texts hex dec } ∧
      exec (.fmtDec (v.setWidth 32)) s = .next { s with ret := .text dec } ∧
      if (f = .identification ∨ f = .fragmentOffset) ∧ v = 0#16 then hex = ['0', 'x', '0']
      else exec (.fmtHex v n) s = .next { s with ret := .text hex }

/-- R146: an address is the decimal forms of its four octets in payload order, joined by dots. -/
def Obligations.AddressTextIsDotted : Prop :=
  ∀ (s : State) (o0 o1 o2 o3 : Byte),
    ∃ t0 t1 t2 t3, exec (.fmtAddr o0 o1 o2 o3) s =
        .next { s with ret := .text (t0 ++ ['.'] ++ t1 ++ ['.'] ++ t2 ++ ['.'] ++ t3) } ∧
      exec (.fmtDec (o0.setWidth 32)) s = .next { s with ret := .text t0 } ∧
      exec (.fmtDec (o1.setWidth 32)) s = .next { s with ret := .text t1 } ∧
      exec (.fmtDec (o2.setWidth 32)) s = .next { s with ret := .text t2 } ∧
      exec (.fmtDec (o3.setWidth 32)) s = .next { s with ret := .text t3 }

/-- R147: the protocol is reported as its field is, and with its name when it has one. -/
def Obligations.ProtocolTextHasOptionalName : Prop :=
  ∀ (s : State) (p : Byte),
    ∃ hex dec n, exec (.fmtProto p) s = .next { s with ret := .protoTexts hex dec n } ∧
      exec (.fmtField .protocol (p.setWidth 16)) s = .next { s with ret := .texts hex dec } ∧
      ∃ i, decode { sel := .proto8, bytes := [p] } = .ok i ∧ exec i s = .next { s with ret := .name n }

/-- The model's stop on operands outside the domain a rule gives (log entry 12): `FMT_HEX` of a value that
does not fit its bytes, `FMT_FIELD` of an address or of a value that does not fit, and the default protocol
row on a named value. -/
def Obligations.IllFormedOperandsAreRefused : Prop :=
  ∀ (s : State) (i : Instr), i.wf = false → exec i s = .refused .outsideDomain

/-! ## The step -/

/-- R90, R91: with nothing asked for by name, the step runs the operation that the phase selects on the
symbol at the cursor, and in `S_END` it runs none. Two clauses are the model's choice and no rule's: in `S_END`
the strobes go inactive (log entry 3), and a word that is asked for by name, through `calls`, and decodes is
run as what it decodes to (log entry 8: the block has no such port). -/
def Obligations.StepRunsDecodedInstruction : Prop :=
  ∀ (s : State) (sym : Symbol),
    (sym = match s.stream[s.cur]? with | some b => .byte b | none => .eos) →
    (s.calls = [] → s.st = .sCount → step s = exec (.readCount sym) s) ∧
    (s.calls = [] → s.st = .sLen → step s = exec (.readLen sym) s) ∧
    (s.calls = [] → s.st = .sPayload → step s = exec (.readPayload sym) s) ∧
    (s.calls = [] → s.st = .sDrain → step s = exec (.readDrain sym) s) ∧
    (s.calls = [] → s.st = .sEnd → step s = .next { s with strobe := {} }) ∧
    (∀ (w : OpWord) (rest : List OpWord) (i : Instr), s.calls = w :: rest → decode w = .ok i →
      step s = exec i { s with calls := rest })

/-- R93, R187: in `S_END` no register but the strobes changes, no event is emitted and no byte is consumed,
whatever is offered, until reset. The strobes go inactive: R187 says so of a cycle with no step, and that a
step in `S_END` does the same is the model's reading (log entry 3). -/
def Obligations.EndIsAbsorbing : Prop :=
  ∀ (s : State) (p : PortsIn), s.st = .sEnd →
    (s.calls = [] → step s = .next { s with strobe := {} }) ∧
    (p.rst = false → clockEdge p s = .next { s with strobe := {} }) ∧
    inReady s = false

/-- R187: a cycle that offers a byte runs that byte and ignores end-of-stream; a cycle that offers only
end-of-stream runs it; a cycle that offers neither holds every register, with the strobes inactive (log entries 3 and 14). -/
def Obligations.EdgeRunsOfferedSymbol : Prop :=
  ∀ (s : State) (p : PortsIn), p.rst = false →
    (p.inValid = true → s.st = .sCount → clockEdge p s = exec (.readCount (.byte p.inData)) s) ∧
    (p.inValid = true → s.st = .sLen → clockEdge p s = exec (.readLen (.byte p.inData)) s) ∧
    (p.inValid = true → s.st = .sPayload → clockEdge p s = exec (.readPayload (.byte p.inData)) s) ∧
    (p.inValid = true → s.st = .sDrain → clockEdge p s = exec (.readDrain (.byte p.inData)) s) ∧
    (p.inValid = false → p.inEos = true → s.st = .sCount → clockEdge p s = exec (.readCount .eos) s) ∧
    (p.inValid = false → p.inEos = true → s.st = .sLen → clockEdge p s = exec (.readLen .eos) s) ∧
    (p.inValid = false → p.inEos = true → s.st = .sPayload → clockEdge p s = exec (.readPayload .eos) s) ∧
    (p.inValid = false → p.inEos = true → s.st = .sDrain → clockEdge p s = exec (.readDrain .eos) s) ∧
    (p.inValid = false → p.inEos = false → clockEdge p s = .next { s with strobe := {} })

/-- R20: a step consumes one byte exactly when the phase takes symbols and a byte is left; otherwise the
cursor stands. -/
def Obligations.StepMovesCursorByOneByte : Prop :=
  ∀ (s t : State), s.calls = [] → step s = .next t →
    t.cur = if s.st ≠ .sEnd ∧ s.cur < s.stream.length then s.cur + 1 else s.cur

/-- R53, R25: no instruction writes the input or a build parameter; only `open` presents another input. -/
def Obligations.InputAndParametersAreNeverWritten : Prop :=
  ∀ (s t : State) (i : Instr), exec i s = .next t →
    t.params = s.params ∧ t.calls = s.calls ∧
      ((∀ bs, i ≠ .openSource (some bs)) → t.stream = s.stream)

/-! ## Frames -/

/-- R140, R100: the operations that only compute change nothing but the value they give. -/
def Obligations.ComputingChangesOnlyTheValue : Prop :=
  ∀ (s t : State) (i : Instr), onlyComputes i = true → exec i s = .next t → t = { s with ret := t.ret }

/-- R16: which operation writes which register. `PCOUNT` is `READ_COUNT`'s; `DLEN` is `READ_RECORD.LEN`'s;
`BCNT` is theirs; `RCVD` is that of `READ_RECORD`'s three byte phases. `PIDX` becomes 1 on the last byte of
the count, and `PIDX + 1` where `next_record()` is reached and another record follows. The result registers
change where a record is reported, and the end-status registers where the run ends. `ST` changes where a field
or a record is complete, or the stream ends. (`PBUF` is the next statement's. `open` plays reset's role and is
left out: `OpenPresentsStreamOrFails`.) That the parts of a step are named beside the steps that contain them
is the model's choice (log entry 19). -/
def Obligations.RegistersHaveTheirWriters : Prop :=
  ∀ (s t : State) (i : Instr), exec i s = .next t → (∀ bs, i ≠ .openSource (some bs)) →
    (t.pcount ≠ s.pcount → ∃ b, i = .readCount (.byte b)) ∧
    (t.dlen ≠ s.dlen → ∃ b, i = .readLen (.byte b)) ∧
    (t.bcnt ≠ s.bcnt → (∃ b, i = .readCount (.byte b)) ∨ ∃ b, i = .readLen (.byte b)) ∧
    (t.rcvd ≠ s.rcvd →
      (∃ b, i = .readLen (.byte b)) ∨ (∃ b, i = .readPayload (.byte b)) ∨ ∃ b, i = .readDrain (.byte b)) ∧
    (t.pidx ≠ s.pidx → t.st = .sLen ∧
      ((LastCountByte i s ∧ t.pidx = 1#32) ∨
        (ReachesNextRecord i s ∧ s.pidx ≠ s.pcount ∧ t.pidx = s.pidx + 1#32))) ∧
    (t.res ≠ s.res → ReportsRecord i s ∧
      ∃ idx dlen stat plen hdr, .record idx dlen stat plen hdr ∈ t.events.drop s.events.length) ∧
    (t.endCode ≠ s.endCode ∨ t.endIdx ≠ s.endIdx →
      (MeetsEndOfStream i ∨ LastCountByte i s ∨ ReachesNextRecord i s) ∧
      t.st = .sEnd ∧ t.events.getLast? = some (.finish t.endCode t.endIdx)) ∧
    (t.st ≠ s.st →
      MeetsEndOfStream i ∨ LastCountByte i s ∨ (∃ d, DispatchesLength d i s) ∨ ReachesNextRecord i s)

/-- R46: the buffer is written by `READ_RECORD.PAYLOAD` alone, one byte at the fill level, every other
offset reading as before, and emptied when a length field completes; every other operation leaves every
offset as it reads. -/
def Obligations.BufferIsWrittenAtFillLevelOnly : Prop :=
  ∀ (s t : State) (i : Instr), exec i s = .next t → (∀ bs, i ≠ .openSource (some bs)) →
    (∀ b, i = .readPayload (.byte b) →
      t.pbuf.read s.rcvd.toNat = some b ∧ ∀ a, a ≠ s.rcvd.toNat → t.pbuf.read a = s.pbuf.read a) ∧
    (∀ b, i = .readLen (.byte b) →
      if s.bcnt = 3#2 then ∀ a, t.pbuf.read a = none else ∀ a, t.pbuf.read a = s.pbuf.read a) ∧
    ((∀ b, i ≠ .readPayload (.byte b)) → (∀ b, i ≠ .readLen (.byte b)) →
      ∀ a, t.pbuf.read a = s.pbuf.read a)

/-- R51: events leave in the order they are emitted: what was emitted stands, and one instruction adds at
most two. -/
def Obligations.EventsAreOnlyAppended : Prop :=
  ∀ (s t : State) (i : Instr), exec i s = .next t → (∀ bs, i ≠ .openSource (some bs)) →
    ∃ es, t.events = s.events ++ es ∧ es.length ≤ 2

/-! ## Invariants -/

/-- R35 holds after reset, and when a stream is presented after reset. -/
def Obligations.InvariantAtStart : Prop :=
  Inv State.reset ∧ ∀ (p : Params) (bytes : List Byte), Inv (startOn p bytes) ∧ Mirror (startOn p bytes)

/-- R35: every step keeps the invariant. -/
def Obligations.StepKeepsInvariant : Prop :=
  ∀ (s t : State), Inv s → step s = .next t → Inv t

/-- R90: the step is total where the invariant holds: it never stops with a fault or a refusal. -/
def Obligations.StepAnswersNextState : Prop :=
  ∀ (s : State), Inv s → ∃ t, step s = .next t

/-- R30: events and registers never disagree: every step, an operation asked for by name included, keeps
their agreement. -/
def Obligations.StepKeepsRegistersAndEventsEqual : Prop :=
  ∀ (s t : State), Mirror s → step s = .next t → Mirror t

/-- R33: no step, an operation asked for by name included, stores outside the capacity or breaks the
canonical form of the buffer. -/
def Obligations.StepKeepsBufferWithinCapacity : Prop :=
  ∀ (s t : State), BufferOk s → step s = .next t → BufferOk t

/-- R91: a run ends: from any state of the invariant, one step more than there are bytes left reaches
`S_END`, with exactly one `EndEv`, the last event of the run. -/
def Obligations.RunReachesEnd : Prop :=
  ∀ (s : State), Inv s →
    ∃ t, Host.Core.run Sys2Proof.core (s.stream.length - s.cur + 1) s = .next t ∧ t.st = .sEnd ∧
      reportedEnds t.events = [(t.endCode, t.endIdx)] ∧
      t.events.getLast? = some (.finish t.endCode t.endIdx)

/-- R94: for every stream and every parameters, the fold of the step from reset emits exactly the events of
the functional reading, consumes exactly the bytes it passes over, and ends. -/
def Obligations.RunImplementsContract : Prop :=
  ∀ (p : Params) (bytes : List Byte),
    ∃ t, Host.Core.run Sys2Proof.core (bytes.length + 1) (startOn p bytes) = .next t ∧
      t.st = .sEnd ∧ t.events = runContract p bytes ∧ t.cur = consumedContract p bytes

/-- R164, R163: a run that ends with `OK` has reported every record the count announced, once, in order; a
run that reported fewer ends with a truncation. -/
def Obligations.SuccessReportsEveryRecord : Prop :=
  ∀ (p : Params) (bytes : List Byte) (t : State),
    Host.Core.run Sys2Proof.core (bytes.length + 1) (startOn p bytes) = .next t →
    (t.endCode = .ok → recordIndices t.events = List.range' 1 t.pcount.toNat) ∧
    ((recordIndices t.events).length < t.pcount.toNat → announcedCounts t.events ≠ [] →
      t.endCode = .truncatedRecord)

/-- R163: what the block does up to a point depends on the bytes before it alone: two streams with the same
first bytes take the same steps over them, and leave the same registers and events. -/
def Obligations.CommonPrefixGivesSameRun : Prop :=
  ∀ (p : Params) (common rest rest' : List Byte),
    ∃ t, Host.Core.run Sys2Proof.core common.length (startOn p (common ++ rest)) = .next t ∧
      Host.Core.run Sys2Proof.core common.length (startOn p (common ++ rest')) =
        .next { t with stream := common ++ rest' }

/-- R92: after a run that ends with `OK`, bytes that follow in the stream are not consumed and change
nothing. -/
def Obligations.TrailingBytesHaveNoEffect : Prop :=
  ∀ (p : Params) (bytes trailing : List Byte) (t : State),
    Host.Core.run Sys2Proof.core (bytes.length + 1) (startOn p bytes) = .next t → t.endCode = .ok →
    Host.Core.run Sys2Proof.core (bytes.length + 1) (startOn p (bytes ++ trailing)) =
      .next { t with stream := bytes ++ trailing }

/-! ## Encoding -/

/-- Decoding the word of a well-formed instruction gives it back, for every instruction and every value of
its operands. The words of the `OP` rows are the model's own (log entry 8). -/
def Obligations.DecodeInvertsEncode : Prop :=
  ∀ (i : Instr), i.wf = true → decode (encode i) = .ok i

/-- The decoder gives only well-formed instructions, on any word. -/
def Obligations.DecoderGivesWellFormed : Prop :=
  ∀ (w : OpWord) (i : Instr), decode w = .ok i → i.wf = true

/-- Words written out from R62, R76 and 42_protocol_lookup.md decode to what they stand for. -/
def Obligations.WrittenWordsDecode : Prop :=
  decode { sel := .proto8, bytes := [0b00000110#8] } = .ok .protoTcp ∧
  decode { sel := .proto8, bytes := [0b11001000#8] } = .ok (.protoNone 200#8) ∧
  decode { sel := .stream .sCount, bytes := [0x02#8] } = .ok (.readCount (.byte 2#8)) ∧
  decode { sel := .stream .sPayload, bytes := [] } = .ok (.readPayload .eos) ∧
  decode { sel := .stream .sEnd, bytes := [0x02#8] } = .error .noOperationInEnd ∧
  decode { sel := .field .flags, bytes := [0x45, 0, 0, 0x54, 0x1C, 0x46, 0x40, 0, 0x40, 6, 0xB1, 0xE6,
    0xC0, 0xA8, 1, 1, 0x0A, 0, 0, 1] } = .ok (.flags 0x40#8)

/-- A table word placed for the next step is what the next step runs (log entry 9): a protocol value or a
header vector from any state, a count field from reset. -/
def Obligations.PlacedWordIsRunNext : Prop :=
  ∀ (s : State) (w : Nat) (i : Instr),
    (decodeTableWord 8 w = some i → step (s.withFetchWord 8 w) = exec i s) ∧
    (decodeTableWord 160 w = some i → step (s.withFetchWord 160 w) = exec i s) ∧
    (decodeTableWord 32 w = some i →
      step (State.reset.withFetchWord 32 w) = exec i (State.reset.withFetchWord 32 w))
end

