-- ==== Sys2Proof/Laws/State.lean ====
section
/-!
SUPPORT. The fields of the state after each shared update, one lemma per field, so that no proof unfolds a
record update of Ops.lean again.
-/

namespace Sys2Proof.Machine

variable (s : State)

/-! ## `quiet` -/

@[simp] theorem quiet_params : (quiet s).params = s.params := rfl
@[simp] theorem quiet_stream : (quiet s).stream = s.stream := rfl
@[simp] theorem quiet_cur : (quiet s).cur = s.cur := rfl
@[simp] theorem quiet_st : (quiet s).st = s.st := rfl
@[simp] theorem quiet_bcnt : (quiet s).bcnt = s.bcnt := rfl
@[simp] theorem quiet_pcount : (quiet s).pcount = s.pcount := rfl
@[simp] theorem quiet_dlen : (quiet s).dlen = s.dlen := rfl
@[simp] theorem quiet_pidx : (quiet s).pidx = s.pidx := rfl
@[simp] theorem quiet_rcvd : (quiet s).rcvd = s.rcvd := rfl
@[simp] theorem quiet_endCode : (quiet s).endCode = s.endCode := rfl
@[simp] theorem quiet_endIdx : (quiet s).endIdx = s.endIdx := rfl
@[simp] theorem quiet_pbuf : (quiet s).pbuf = s.pbuf := rfl
@[simp] theorem quiet_res : (quiet s).res = s.res := rfl
@[simp] theorem quiet_strobe : (quiet s).strobe = {} := rfl
@[simp] theorem quiet_events : (quiet s).events = s.events := rfl
@[simp] theorem quiet_calls : (quiet s).calls = s.calls := rfl
@[simp] theorem quiet_ret : (quiet s).ret = s.ret := rfl

/-! ## `clearBuffer` -/

@[simp] theorem clearBuffer_params : (clearBuffer s).params = s.params := rfl
@[simp] theorem clearBuffer_stream : (clearBuffer s).stream = s.stream := rfl
@[simp] theorem clearBuffer_cur : (clearBuffer s).cur = s.cur := rfl
@[simp] theorem clearBuffer_st : (clearBuffer s).st = s.st := rfl
@[simp] theorem clearBuffer_bcnt : (clearBuffer s).bcnt = s.bcnt := rfl
@[simp] theorem clearBuffer_pcount : (clearBuffer s).pcount = s.pcount := rfl
@[simp] theorem clearBuffer_dlen : (clearBuffer s).dlen = s.dlen := rfl
@[simp] theorem clearBuffer_pidx : (clearBuffer s).pidx = s.pidx := rfl
@[simp] theorem clearBuffer_rcvd : (clearBuffer s).rcvd = s.rcvd := rfl
@[simp] theorem clearBuffer_endCode : (clearBuffer s).endCode = s.endCode := rfl
@[simp] theorem clearBuffer_endIdx : (clearBuffer s).endIdx = s.endIdx := rfl
@[simp] theorem clearBuffer_pbuf : (clearBuffer s).pbuf = [] := rfl
@[simp] theorem clearBuffer_res : (clearBuffer s).res = s.res := rfl
@[simp] theorem clearBuffer_strobe : (clearBuffer s).strobe = s.strobe := rfl
@[simp] theorem clearBuffer_events : (clearBuffer s).events = s.events := rfl
@[simp] theorem clearBuffer_calls : (clearBuffer s).calls = s.calls := rfl
@[simp] theorem clearBuffer_ret : (clearBuffer s).ret = s.ret := rfl

/-! ## `beginStep` -/

@[simp] theorem beginStep_params (sym : Symbol) : (beginStep sym s).params = s.params := by cases sym <;> rfl
@[simp] theorem beginStep_stream (sym : Symbol) : (beginStep sym s).stream = s.stream := by cases sym <;> rfl
@[simp] theorem beginStep_st (sym : Symbol) : (beginStep sym s).st = s.st := by cases sym <;> rfl
@[simp] theorem beginStep_bcnt (sym : Symbol) : (beginStep sym s).bcnt = s.bcnt := by cases sym <;> rfl
@[simp] theorem beginStep_pcount (sym : Symbol) : (beginStep sym s).pcount = s.pcount := by cases sym <;> rfl
@[simp] theorem beginStep_dlen (sym : Symbol) : (beginStep sym s).dlen = s.dlen := by cases sym <;> rfl
@[simp] theorem beginStep_pidx (sym : Symbol) : (beginStep sym s).pidx = s.pidx := by cases sym <;> rfl
@[simp] theorem beginStep_rcvd (sym : Symbol) : (beginStep sym s).rcvd = s.rcvd := by cases sym <;> rfl
@[simp] theorem beginStep_endCode (sym : Symbol) :
    (beginStep sym s).endCode = s.endCode := by cases sym <;> rfl
@[simp] theorem beginStep_endIdx (sym : Symbol) : (beginStep sym s).endIdx = s.endIdx := by cases sym <;> rfl
@[simp] theorem beginStep_pbuf (sym : Symbol) : (beginStep sym s).pbuf = s.pbuf := by cases sym <;> rfl
@[simp] theorem beginStep_res (sym : Symbol) : (beginStep sym s).res = s.res := by cases sym <;> rfl
@[simp] theorem beginStep_strobe (sym : Symbol) : (beginStep sym s).strobe = {} := by cases sym <;> rfl
@[simp] theorem beginStep_events (sym : Symbol) : (beginStep sym s).events = s.events := by cases sym <;> rfl
@[simp] theorem beginStep_calls (sym : Symbol) : (beginStep sym s).calls = s.calls := by cases sym <;> rfl
@[simp] theorem beginStep_ret (sym : Symbol) : (beginStep sym s).ret = s.ret := by cases sym <;> rfl

@[simp] theorem beginStep_byte_cur (b : Byte) : (beginStep (.byte b) s).cur = s.cur + 1 := rfl
@[simp] theorem beginStep_eos_cur : (beginStep .eos s).cur = s.cur := rfl

/-! ## `emit` -/

@[simp] theorem emit_params (e : Event) : (emit e s).params = s.params := rfl
@[simp] theorem emit_stream (e : Event) : (emit e s).stream = s.stream := rfl
@[simp] theorem emit_cur (e : Event) : (emit e s).cur = s.cur := rfl
@[simp] theorem emit_st (e : Event) : (emit e s).st = s.st := rfl
@[simp] theorem emit_bcnt (e : Event) : (emit e s).bcnt = s.bcnt := rfl
@[simp] theorem emit_pcount (e : Event) : (emit e s).pcount = s.pcount := rfl
@[simp] theorem emit_dlen (e : Event) : (emit e s).dlen = s.dlen := rfl
@[simp] theorem emit_pidx (e : Event) : (emit e s).pidx = s.pidx := rfl
@[simp] theorem emit_rcvd (e : Event) : (emit e s).rcvd = s.rcvd := rfl
@[simp] theorem emit_endCode (e : Event) : (emit e s).endCode = s.endCode := rfl
@[simp] theorem emit_endIdx (e : Event) : (emit e s).endIdx = s.endIdx := rfl
@[simp] theorem emit_pbuf (e : Event) : (emit e s).pbuf = s.pbuf := rfl
@[simp] theorem emit_res (e : Event) : (emit e s).res = s.res := rfl
@[simp] theorem emit_strobe (e : Event) : (emit e s).strobe = s.strobe.raise e := rfl
@[simp] theorem emit_events (e : Event) : (emit e s).events = s.events ++ [e] := rfl
@[simp] theorem emit_calls (e : Event) : (emit e s).calls = s.calls := rfl
@[simp] theorem emit_ret (e : Event) : (emit e s).ret = s.ret := rfl

/-! ## `report` -/

@[simp] theorem report_params (d : U32) (x : RecStat) (n : U32) (h : Option IPv4Header) :
    (report d x n h s).params = s.params := rfl
@[simp] theorem report_stream (d : U32) (x : RecStat) (n : U32) (h : Option IPv4Header) :
    (report d x n h s).stream = s.stream := rfl
@[simp] theorem report_cur (d : U32) (x : RecStat) (n : U32) (h : Option IPv4Header) :
    (report d x n h s).cur = s.cur := rfl
@[simp] theorem report_st (d : U32) (x : RecStat) (n : U32) (h : Option IPv4Header) :
    (report d x n h s).st = s.st := rfl
@[simp] theorem report_bcnt (d : U32) (x : RecStat) (n : U32) (h : Option IPv4Header) :
    (report d x n h s).bcnt = s.bcnt := rfl
@[simp] theorem report_pcount (d : U32) (x : RecStat) (n : U32) (h : Option IPv4Header) :
    (report d x n h s).pcount = s.pcount := rfl
@[simp] theorem report_dlen (d : U32) (x : RecStat) (n : U32) (h : Option IPv4Header) :
    (report d x n h s).dlen = s.dlen := rfl
@[simp] theorem report_pidx (d : U32) (x : RecStat) (n : U32) (h : Option IPv4Header) :
    (report d x n h s).pidx = s.pidx := rfl
@[simp] theorem report_rcvd (d : U32) (x : RecStat) (n : U32) (h : Option IPv4Header) :
    (report d x n h s).rcvd = s.rcvd := rfl
@[simp] theorem report_endCode (d : U32) (x : RecStat) (n : U32) (h : Option IPv4Header) :
    (report d x n h s).endCode = s.endCode := rfl
@[simp] theorem report_endIdx (d : U32) (x : RecStat) (n : U32) (h : Option IPv4Header) :
    (report d x n h s).endIdx = s.endIdx := rfl
@[simp] theorem report_pbuf (d : U32) (x : RecStat) (n : U32) (h : Option IPv4Header) :
    (report d x n h s).pbuf = s.pbuf := rfl
@[simp] theorem report_res (d : U32) (x : RecStat) (n : U32) (h : Option IPv4Header) :
    (report d x n h s).res = resultOf s.pidx d x n h := rfl
@[simp] theorem report_strobe (d : U32) (x : RecStat) (n : U32) (h : Option IPv4Header) :
    (report d x n h s).strobe = { s.strobe with recValid := true } := rfl
@[simp] theorem report_events (d : U32) (x : RecStat) (n : U32) (h : Option IPv4Header) :
    (report d x n h s).events = s.events ++ [.record s.pidx d x n h] := rfl
@[simp] theorem report_calls (d : U32) (x : RecStat) (n : U32) (h : Option IPv4Header) :
    (report d x n h s).calls = s.calls := rfl
@[simp] theorem report_ret (d : U32) (x : RecStat) (n : U32) (h : Option IPv4Header) :
    (report d x n h s).ret = s.ret := rfl

/-! ## `endRun` -/

@[simp] theorem endRun_params (c : EndCode) (i : U32) : (endRun c i s).params = s.params := rfl
@[simp] theorem endRun_stream (c : EndCode) (i : U32) : (endRun c i s).stream = s.stream := rfl
@[simp] theorem endRun_cur (c : EndCode) (i : U32) : (endRun c i s).cur = s.cur := rfl
@[simp] theorem endRun_st (c : EndCode) (i : U32) : (endRun c i s).st = .sEnd := rfl
@[simp] theorem endRun_bcnt (c : EndCode) (i : U32) : (endRun c i s).bcnt = s.bcnt := rfl
@[simp] theorem endRun_pcount (c : EndCode) (i : U32) : (endRun c i s).pcount = s.pcount := rfl
@[simp] theorem endRun_dlen (c : EndCode) (i : U32) : (endRun c i s).dlen = s.dlen := rfl
@[simp] theorem endRun_pidx (c : EndCode) (i : U32) : (endRun c i s).pidx = s.pidx := rfl
@[simp] theorem endRun_rcvd (c : EndCode) (i : U32) : (endRun c i s).rcvd = s.rcvd := rfl
@[simp] theorem endRun_endCode (c : EndCode) (i : U32) : (endRun c i s).endCode = c := rfl
@[simp] theorem endRun_endIdx (c : EndCode) (i : U32) : (endRun c i s).endIdx = i := rfl
@[simp] theorem endRun_pbuf (c : EndCode) (i : U32) : (endRun c i s).pbuf = s.pbuf := rfl
@[simp] theorem endRun_res (c : EndCode) (i : U32) : (endRun c i s).res = s.res := rfl
@[simp] theorem endRun_strobe (c : EndCode) (i : U32) :
    (endRun c i s).strobe = { s.strobe with endValid := true } := rfl
@[simp] theorem endRun_events (c : EndCode) (i : U32) :
    (endRun c i s).events = s.events ++ [.finish c i] := rfl
@[simp] theorem endRun_calls (c : EndCode) (i : U32) : (endRun c i s).calls = s.calls := rfl
@[simp] theorem endRun_ret (c : EndCode) (i : U32) : (endRun c i s).ret = s.ret := rfl

/-! ## `toNextRecord` -/

@[simp] theorem toNextRecord_params :
    (toNextRecord s).params = s.params := by unfold toNextRecord; split <;> rfl
@[simp] theorem toNextRecord_stream :
    (toNextRecord s).stream = s.stream := by unfold toNextRecord; split <;> rfl
@[simp] theorem toNextRecord_cur : (toNextRecord s).cur = s.cur := by unfold toNextRecord; split <;> rfl
@[simp] theorem toNextRecord_bcnt : (toNextRecord s).bcnt = s.bcnt := by unfold toNextRecord; split <;> rfl
@[simp] theorem toNextRecord_pcount :
    (toNextRecord s).pcount = s.pcount := by unfold toNextRecord; split <;> rfl
@[simp] theorem toNextRecord_dlen : (toNextRecord s).dlen = s.dlen := by unfold toNextRecord; split <;> rfl
@[simp] theorem toNextRecord_rcvd : (toNextRecord s).rcvd = s.rcvd := by unfold toNextRecord; split <;> rfl
@[simp] theorem toNextRecord_pbuf : (toNextRecord s).pbuf = s.pbuf := by unfold toNextRecord; split <;> rfl
@[simp] theorem toNextRecord_res : (toNextRecord s).res = s.res := by unfold toNextRecord; split <;> rfl
@[simp] theorem toNextRecord_calls : (toNextRecord s).calls = s.calls := by unfold toNextRecord; split <;> rfl
@[simp] theorem toNextRecord_ret : (toNextRecord s).ret = s.ret := by unfold toNextRecord; split <;> rfl

/-! ## `resetOn` -/

@[simp] theorem resetOn_params (bs : List Byte) : (resetOn bs s).params = s.params := rfl
@[simp] theorem resetOn_stream (bs : List Byte) : (resetOn bs s).stream = bs := rfl
@[simp] theorem resetOn_cur (bs : List Byte) : (resetOn bs s).cur = 0 := rfl
@[simp] theorem resetOn_st (bs : List Byte) : (resetOn bs s).st = .sCount := rfl
@[simp] theorem resetOn_bcnt (bs : List Byte) : (resetOn bs s).bcnt = 0#2 := rfl
@[simp] theorem resetOn_pcount (bs : List Byte) : (resetOn bs s).pcount = 0#32 := rfl
@[simp] theorem resetOn_dlen (bs : List Byte) : (resetOn bs s).dlen = 0#32 := rfl
@[simp] theorem resetOn_pidx (bs : List Byte) : (resetOn bs s).pidx = 0#32 := rfl
@[simp] theorem resetOn_rcvd (bs : List Byte) : (resetOn bs s).rcvd = 0#32 := rfl
@[simp] theorem resetOn_endCode (bs : List Byte) : (resetOn bs s).endCode = .ok := rfl
@[simp] theorem resetOn_endIdx (bs : List Byte) : (resetOn bs s).endIdx = 0#32 := rfl
@[simp] theorem resetOn_pbuf (bs : List Byte) : (resetOn bs s).pbuf = [] := rfl
@[simp] theorem resetOn_res (bs : List Byte) : (resetOn bs s).res = .zero := rfl
@[simp] theorem resetOn_strobe (bs : List Byte) : (resetOn bs s).strobe = {} := rfl
@[simp] theorem resetOn_events (bs : List Byte) : (resetOn bs s).events = [] := rfl
@[simp] theorem resetOn_calls (bs : List Byte) : (resetOn bs s).calls = s.calls := rfl
@[simp] theorem resetOn_ret (bs : List Byte) : (resetOn bs s).ret = s.ret := rfl

/-- What `next_record()` leaves after the last record (40_framer.md R89). -/
theorem toNextRecord_last (h : s.pidx = s.pcount) : toNextRecord s = endRun .ok s.pcount s := if_pos h

/-- What `next_record()` leaves after any other record (40_framer.md R89). -/
theorem toNextRecord_more (h : s.pidx ≠ s.pcount) :
    toNextRecord s = { s with pidx := s.pidx + 1#32, st := .sLen } := if_neg h

/-! ## The states inside the operations that take a byte -/

/-- The state after a byte of the count is in its lane (40_framer.md R81). -/
def countByte (b : Byte) (s : State) : State :=
  { beginStep (.byte b) s with pcount := setLane s.params.frameEndian s.bcnt.toNat b s.pcount }

/-- The state after a byte of a declared length is in its lane (40_framer.md R83). -/
def lengthByte (b : Byte) (s : State) : State :=
  { beginStep (.byte b) s with dlen := setLane s.params.frameEndian s.bcnt.toNat b s.dlen }

/-- The state in which a completed declared length is dispatched (40_framer.md R83). -/
def lengthDone (b : Byte) (s : State) : State :=
  { lengthByte b s with bcnt := 0#2, rcvd := 0#32, pbuf := [] }

/-- The state after a payload byte is stored (40_framer.md R85). -/
def payloadByte (b : Byte) (s : State) : State :=
  { beginStep (.byte b) s with pbuf := s.pbuf.write s.rcvd.toNat b, rcvd := s.rcvd + 1#32 }

/-- The state after a byte is passed over (40_framer.md R86). -/
def drainByte (b : Byte) (s : State) : State :=
  { beginStep (.byte b) s with rcvd := s.rcvd + 1#32 }

/-! ## `countByte` -/

@[simp] theorem countByte_params (b : Byte) : (countByte b s).params = s.params := rfl
@[simp] theorem countByte_stream (b : Byte) : (countByte b s).stream = s.stream := rfl
@[simp] theorem countByte_cur (b : Byte) : (countByte b s).cur = s.cur + 1 := rfl
@[simp] theorem countByte_st (b : Byte) : (countByte b s).st = s.st := rfl
@[simp] theorem countByte_bcnt (b : Byte) : (countByte b s).bcnt = s.bcnt := rfl
@[simp] theorem countByte_pcount (b : Byte) :
    (countByte b s).pcount = setLane s.params.frameEndian s.bcnt.toNat b s.pcount := rfl
@[simp] theorem countByte_dlen (b : Byte) : (countByte b s).dlen = s.dlen := rfl
@[simp] theorem countByte_pidx (b : Byte) : (countByte b s).pidx = s.pidx := rfl
@[simp] theorem countByte_rcvd (b : Byte) : (countByte b s).rcvd = s.rcvd := rfl
@[simp] theorem countByte_endCode (b : Byte) : (countByte b s).endCode = s.endCode := rfl
@[simp] theorem countByte_endIdx (b : Byte) : (countByte b s).endIdx = s.endIdx := rfl
@[simp] theorem countByte_pbuf (b : Byte) : (countByte b s).pbuf = s.pbuf := rfl
@[simp] theorem countByte_res (b : Byte) : (countByte b s).res = s.res := rfl
@[simp] theorem countByte_strobe (b : Byte) : (countByte b s).strobe = {} := rfl
@[simp] theorem countByte_events (b : Byte) : (countByte b s).events = s.events := rfl
@[simp] theorem countByte_calls (b : Byte) : (countByte b s).calls = s.calls := rfl
@[simp] theorem countByte_ret (b : Byte) : (countByte b s).ret = s.ret := rfl

/-! ## `lengthByte` -/

@[simp] theorem lengthByte_params (b : Byte) : (lengthByte b s).params = s.params := rfl
@[simp] theorem lengthByte_stream (b : Byte) : (lengthByte b s).stream = s.stream := rfl
@[simp] theorem lengthByte_cur (b : Byte) : (lengthByte b s).cur = s.cur + 1 := rfl
@[simp] theorem lengthByte_st (b : Byte) : (lengthByte b s).st = s.st := rfl
@[simp] theorem lengthByte_bcnt (b : Byte) : (lengthByte b s).bcnt = s.bcnt := rfl
@[simp] theorem lengthByte_pcount (b : Byte) : (lengthByte b s).pcount = s.pcount := rfl
@[simp] theorem lengthByte_dlen (b : Byte) :
    (lengthByte b s).dlen = setLane s.params.frameEndian s.bcnt.toNat b s.dlen := rfl
@[simp] theorem lengthByte_pidx (b : Byte) : (lengthByte b s).pidx = s.pidx := rfl
@[simp] theorem lengthByte_rcvd (b : Byte) : (lengthByte b s).rcvd = s.rcvd := rfl
@[simp] theorem lengthByte_endCode (b : Byte) : (lengthByte b s).endCode = s.endCode := rfl
@[simp] theorem lengthByte_endIdx (b : Byte) : (lengthByte b s).endIdx = s.endIdx := rfl
@[simp] theorem lengthByte_pbuf (b : Byte) : (lengthByte b s).pbuf = s.pbuf := rfl
@[simp] theorem lengthByte_res (b : Byte) : (lengthByte b s).res = s.res := rfl
@[simp] theorem lengthByte_strobe (b : Byte) : (lengthByte b s).strobe = {} := rfl
@[simp] theorem lengthByte_events (b : Byte) : (lengthByte b s).events = s.events := rfl
@[simp] theorem lengthByte_calls (b : Byte) : (lengthByte b s).calls = s.calls := rfl
@[simp] theorem lengthByte_ret (b : Byte) : (lengthByte b s).ret = s.ret := rfl

/-! ## `lengthDone` -/

@[simp] theorem lengthDone_params (b : Byte) : (lengthDone b s).params = s.params := rfl
@[simp] theorem lengthDone_stream (b : Byte) : (lengthDone b s).stream = s.stream := rfl
@[simp] theorem lengthDone_cur (b : Byte) : (lengthDone b s).cur = s.cur + 1 := rfl
@[simp] theorem lengthDone_st (b : Byte) : (lengthDone b s).st = s.st := rfl
@[simp] theorem lengthDone_bcnt (b : Byte) : (lengthDone b s).bcnt = 0#2 := rfl
@[simp] theorem lengthDone_pcount (b : Byte) : (lengthDone b s).pcount = s.pcount := rfl
@[simp] theorem lengthDone_dlen (b : Byte) :
    (lengthDone b s).dlen = setLane s.params.frameEndian s.bcnt.toNat b s.dlen := rfl
@[simp] theorem lengthDone_pidx (b : Byte) : (lengthDone b s).pidx = s.pidx := rfl
@[simp] theorem lengthDone_rcvd (b : Byte) : (lengthDone b s).rcvd = 0#32 := rfl
@[simp] theorem lengthDone_endCode (b : Byte) : (lengthDone b s).endCode = s.endCode := rfl
@[simp] theorem lengthDone_endIdx (b : Byte) : (lengthDone b s).endIdx = s.endIdx := rfl
@[simp] theorem lengthDone_pbuf (b : Byte) : (lengthDone b s).pbuf = [] := rfl
@[simp] theorem lengthDone_res (b : Byte) : (lengthDone b s).res = s.res := rfl
@[simp] theorem lengthDone_strobe (b : Byte) : (lengthDone b s).strobe = {} := rfl
@[simp] theorem lengthDone_events (b : Byte) : (lengthDone b s).events = s.events := rfl
@[simp] theorem lengthDone_calls (b : Byte) : (lengthDone b s).calls = s.calls := rfl
@[simp] theorem lengthDone_ret (b : Byte) : (lengthDone b s).ret = s.ret := rfl

/-! ## `payloadByte` -/

@[simp] theorem payloadByte_params (b : Byte) : (payloadByte b s).params = s.params := rfl
@[simp] theorem payloadByte_stream (b : Byte) : (payloadByte b s).stream = s.stream := rfl
@[simp] theorem payloadByte_cur (b : Byte) : (payloadByte b s).cur = s.cur + 1 := rfl
@[simp] theorem payloadByte_st (b : Byte) : (payloadByte b s).st = s.st := rfl
@[simp] theorem payloadByte_bcnt (b : Byte) : (payloadByte b s).bcnt = s.bcnt := rfl
@[simp] theorem payloadByte_pcount (b : Byte) : (payloadByte b s).pcount = s.pcount := rfl
@[simp] theorem payloadByte_dlen (b : Byte) : (payloadByte b s).dlen = s.dlen := rfl
@[simp] theorem payloadByte_pidx (b : Byte) : (payloadByte b s).pidx = s.pidx := rfl
@[simp] theorem payloadByte_rcvd (b : Byte) : (payloadByte b s).rcvd = s.rcvd + 1#32 := rfl
@[simp] theorem payloadByte_endCode (b : Byte) : (payloadByte b s).endCode = s.endCode := rfl
@[simp] theorem payloadByte_endIdx (b : Byte) : (payloadByte b s).endIdx = s.endIdx := rfl
@[simp] theorem payloadByte_pbuf (b : Byte) : (payloadByte b s).pbuf = s.pbuf.write s.rcvd.toNat b := rfl
@[simp] theorem payloadByte_res (b : Byte) : (payloadByte b s).res = s.res := rfl
@[simp] theorem payloadByte_strobe (b : Byte) : (payloadByte b s).strobe = {} := rfl
@[simp] theorem payloadByte_events (b : Byte) : (payloadByte b s).events = s.events := rfl
@[simp] theorem payloadByte_calls (b : Byte) : (payloadByte b s).calls = s.calls := rfl
@[simp] theorem payloadByte_ret (b : Byte) : (payloadByte b s).ret = s.ret := rfl

/-! ## `drainByte` -/

@[simp] theorem drainByte_params (b : Byte) : (drainByte b s).params = s.params := rfl
@[simp] theorem drainByte_stream (b : Byte) : (drainByte b s).stream = s.stream := rfl
@[simp] theorem drainByte_cur (b : Byte) : (drainByte b s).cur = s.cur + 1 := rfl
@[simp] theorem drainByte_st (b : Byte) : (drainByte b s).st = s.st := rfl
@[simp] theorem drainByte_bcnt (b : Byte) : (drainByte b s).bcnt = s.bcnt := rfl
@[simp] theorem drainByte_pcount (b : Byte) : (drainByte b s).pcount = s.pcount := rfl
@[simp] theorem drainByte_dlen (b : Byte) : (drainByte b s).dlen = s.dlen := rfl
@[simp] theorem drainByte_pidx (b : Byte) : (drainByte b s).pidx = s.pidx := rfl
@[simp] theorem drainByte_rcvd (b : Byte) : (drainByte b s).rcvd = s.rcvd + 1#32 := rfl
@[simp] theorem drainByte_endCode (b : Byte) : (drainByte b s).endCode = s.endCode := rfl
@[simp] theorem drainByte_endIdx (b : Byte) : (drainByte b s).endIdx = s.endIdx := rfl
@[simp] theorem drainByte_pbuf (b : Byte) : (drainByte b s).pbuf = s.pbuf := rfl
@[simp] theorem drainByte_res (b : Byte) : (drainByte b s).res = s.res := rfl
@[simp] theorem drainByte_strobe (b : Byte) : (drainByte b s).strobe = {} := rfl
@[simp] theorem drainByte_events (b : Byte) : (drainByte b s).events = s.events := rfl
@[simp] theorem drainByte_calls (b : Byte) : (drainByte b s).calls = s.calls := rfl
@[simp] theorem drainByte_ret (b : Byte) : (drainByte b s).ret = s.ret := rfl

end Sys2Proof.Machine
end

