-- ==== Sys2Proof/Laws/Memory.lean ====
section
/-!
SUPPORT. The laws of the payload buffer: read after write, the canonical form and the bound kept by every
write, and the filled prefix (10_state.md R14, R33; 20_memory.md R45, R46).
-/

namespace Sys2Proof.Machine

@[simp] theorem Memory.read_nil (a : Nat) : Memory.read [] a = none := rfl

@[simp] theorem Memory.read_cons (c : Host.Cell) (m : Memory) (a : Nat) :
    Memory.read (c :: m) a = if c.1 = a then some c.2 else Memory.read m a := rfl

/-- A byte just stored is the byte read. -/
@[simp] theorem Memory.read_write_same (m : Memory) (a : Nat) (b : Byte) : (m.write a b).read a = some b := by
  induction m with
  | nil => simp [Memory.write]
  | cons c m ih =>
    unfold Memory.write
    split
    · simp
    · split
      · simp
      · rename_i h1 h2
        simpa [Memory.read_cons, if_neg (Ne.symm h2)] using ih

/-- A store leaves every other offset as it reads. -/
theorem Memory.read_write_other (m : Memory) {a a' : Nat} (b : Byte) (h : a' ≠ a) :
    (m.write a b).read a' = m.read a' := by
  induction m with
  | nil => simp [Memory.write, h.symm]
  | cons c m ih =>
    unfold Memory.write
    split
    · simp [h.symm]
    · split
      · rename_i _ h2
        simp [h.symm, ← h2]
      · simp [ih]

/-- The offsets of a list are above `n`, in rising order. -/
theorem Memory.wf_iff_pairwise (m : Memory) : m.wf = true ↔ (m.map Prod.fst).Pairwise (· < ·) := by
  induction m with
  | nil => simp [Memory.wf]
  | cons c m ih =>
    cases m with
    | nil => simp [Memory.wf]
    | cons d m =>
      rw [Memory.wf, Bool.and_eq_true, ih, decide_eq_true_eq]
      simp only [List.map_cons, List.pairwise_cons, List.mem_cons, forall_eq_or_imp]
      constructor
      · rintro ⟨hcd, hd, hm⟩
        exact ⟨⟨hcd, fun x hx => hcd.trans (hd x hx)⟩, hd, hm⟩
      · rintro ⟨⟨hcd, -⟩, hd, hm⟩
        exact ⟨hcd, hd, hm⟩

/-- The offsets after a store: the old ones and the one stored. -/
theorem Memory.mem_fst_write {m : Memory} {a x : Nat} {b : Byte}
    (h : x ∈ (m.write a b).map Prod.fst) : x = a ∨ x ∈ m.map Prod.fst := by
  induction m with
  | nil => simpa [Memory.write] using h
  | cons c m ih =>
    unfold Memory.write at h
    split at h
    · simpa using h
    · split at h
      · simp only [List.map_cons, List.mem_cons] at h ⊢
        tauto
      · simp only [List.map_cons, List.mem_cons] at h ⊢
        rcases h with h | h
        · exact .inr (.inl h)
        · exact (ih h).imp_right .inr

/-- A store keeps the canonical form. -/
theorem Memory.wf_write {m : Memory} (a : Nat) (b : Byte) (h : m.wf = true) : (m.write a b).wf = true := by
  rw [Memory.wf_iff_pairwise] at h ⊢
  induction m with
  | nil => simp [Memory.write]
  | cons c m ih =>
    simp only [List.map_cons, List.pairwise_cons] at h
    unfold Memory.write
    split
    · rename_i hac
      simp only [List.map_cons, List.pairwise_cons, List.mem_cons, forall_eq_or_imp]
      exact ⟨⟨hac, fun x hx => hac.trans (h.1 x hx)⟩, h⟩
    · split
      · rename_i _ hac
        simpa only [List.map_cons, List.pairwise_cons, hac] using h
      · rename_i h1 h2
        simp only [List.map_cons, List.pairwise_cons]
        refine ⟨fun x hx => ?_, ih h.2⟩
        rcases Memory.mem_fst_write hx with rfl | hx
        · omega
        · exact h.1 x hx

/-- A store beyond every listed offset goes to the end. -/
theorem Memory.write_append {m : Memory} {a : Nat} (b : Byte) (h : ∀ x ∈ m.map Prod.fst, x < a) :
    m.write a b = m ++ [(a, b)] := by
  induction m with
  | nil => rfl
  | cons c m ih =>
    simp only [List.map_cons, List.mem_cons, forall_eq_or_imp] at h
    rw [Memory.write, if_neg (by omega), if_neg (by omega), ih h.2, List.cons_append]

/-- An offset reads as a value exactly when it is listed. -/
theorem Memory.read_isSome_iff (m : Memory) (a : Nat) : (m.read a).isSome ↔ a ∈ m.map Prod.fst := by
  induction m with
  | nil => simp
  | cons c m ih =>
    rw [Memory.read_cons]
    split
    · rename_i h
      simp [h]
    · rename_i h
      rw [ih]
      simp [Ne.symm h]

/-- Many bytes are read when each of them is. -/
theorem Memory.readMany_eq_some_iff (m : Memory) (a n : Nat) (bs : List Byte) :
    m.readMany a n = some bs ↔ bs.length = n ∧ ∀ k, k < n → m.read (a + k) = bs[k]? := by
  induction n generalizing a bs with
  | zero =>
    rw [Memory.readMany]
    constructor
    · intro h
      cases h
      simp
    · rintro ⟨h, -⟩
      rw [List.length_eq_zero_iff.mp h]
  | succ n ih =>
    rw [Memory.readMany]
    constructor
    · intro h
      split at h
      · rename_i b bs' hb hbs
        cases h
        obtain ⟨hl, hk⟩ := (ih (a + 1) bs').mp hbs
        refine ⟨by simp [hl], fun k hk' => ?_⟩
        cases k with
        | zero => simpa using hb
        | succ k =>
          rw [← Nat.add_assoc, Nat.add_right_comm, hk k (by omega)]
          simp
      · cases h
    · rintro ⟨hl, hk⟩
      cases bs with
      | nil => simp at hl
      | cons b bs =>
        have h0 : m.read a = some b := by simpa using hk 0 (by omega)
        have h1 : m.readMany (a + 1) n = some bs := by
          refine (ih (a + 1) bs).mpr ⟨by simpa using hl, fun k hk' => ?_⟩
          have := hk (k + 1) (by omega)
          rw [Nat.add_right_comm, Nat.add_assoc, this]
          simp
        simp [h0, h1]

/-- `MemWrite` answers exactly within the capacity (10_state.md R33). -/
theorem memWrite_eq_some_iff (a : Nat) (b : Byte) (s t : State) :
    memWrite a b s = some t ↔ a < s.params.maxPayload ∧ t = { s with pbuf := s.pbuf.write a b } := by
  unfold memWrite
  split
  · simp_all [eq_comm]
  · simp_all

/-- `MemRead` answers exactly within the filled prefix, where every byte is stored (20_memory.md R45). -/
theorem memRead_eq_some_iff (a n : Nat) (s : State) (bs : List Byte) :
    memRead a n s = some bs ↔
      a + n ≤ s.rcvd.toNat ∧ bs.length = n ∧ ∀ k, k < n → s.pbuf.read (a + k) = bs[k]? := by
  unfold memRead
  split
  · rename_i h
    simp [Memory.readMany_eq_some_iff, h]
  · rename_i h
    simp [h]

end Sys2Proof.Machine
end

