-- ==== Sys2Proof/Laws/Ops.lean ====
section
/-!
SUPPORT. What each shared operation can do, said once: if it answers a next state, then one of these cases
holds. The provers cite these lemmas and do not unfold the operations.
-/

namespace Sys2Proof.Machine

/-! ## The parts of a step -/

/-- `next_record()` ends the run or starts the next record (40_framer.md R89). -/
theorem toNextRecord_cases (s : State) :
    (s.pidx = s.pcount ∧ toNextRecord s = endRun .ok s.pcount s) ∨
    (s.pidx ≠ s.pcount ∧ toNextRecord s = { s with pidx := s.pidx + 1#32, st := .sLen }) := by
  by_cases h : s.pidx = s.pcount
  · exact .inl ⟨h, toNextRecord_last s h⟩
  · exact .inr ⟨h, toNextRecord_more s h⟩

/-- A short record completes without reading the buffer (40_framer.md R87, 60_exceptions.md R155). -/
theorem completeRecord_short {plen : U32} (s : State) (h : plen.toNat < 20) :
    completeRecord plen s = .next (toNextRecord (report s.dlen .headerTooShort plen none s)) := by
  rw [completeRecord, if_pos (by simpa [hdrLen] using h)]
  rfl

/-- A record of 20 bytes or more completes with the header decoded from the buffer (40_framer.md R87). -/
theorem completeRecord_decoded {plen : U32} {s : State} {bs : List Byte} (h : 20 ≤ plen.toNat)
    (hb : memRead 0 20 s = some bs) :
    completeRecord plen s =
      .next (toNextRecord (report s.dlen .ok plen (some (headerOf fun n => bs.getD n 0#8)) s)) := by
  rw [completeRecord, if_neg (by simp [hdrLen]; omega)]
  simp only [hdrLen, hb]

/-- Every way in which a record completes. -/
theorem completeRecord_cases {plen : U32} {s t : State} (h : completeRecord plen s = .next t) :
    (plen.toNat < 20 ∧ t = toNextRecord (report s.dlen .headerTooShort plen none s)) ∨
    (20 ≤ plen.toNat ∧ ∃ bs, memRead 0 20 s = some bs ∧
      t = toNextRecord (report s.dlen .ok plen (some (headerOf fun n => bs.getD n 0#8)) s)) := by
  by_cases hl : plen.toNat < 20
  · rw [completeRecord_short s hl] at h
    cases h
    exact .inl ⟨hl, rfl⟩
  · refine .inr ⟨by omega, ?_⟩
    cases hb : memRead 0 20 s with
    | none =>
      rw [completeRecord, if_neg (by simpa [hdrLen] using hl)] at h
      simp [hdrLen, hb] at h
    | some bs =>
      rw [completeRecord_decoded (by omega) hb] at h
      cases h
      exact ⟨bs, rfl, rfl⟩

/-- A record that completes is reported, and the run goes on: the form that both cases share. -/
theorem completeRecord_reports {plen : U32} {s t : State} (h : completeRecord plen s = .next t) :
    ∃ stat hdr, t = toNextRecord (report s.dlen stat plen hdr s) := by
  obtain ⟨-, rfl⟩ | ⟨-, bs, -, rfl⟩ := completeRecord_cases h
  · exact ⟨_, _, rfl⟩
  · exact ⟨_, _, rfl⟩

/-- A length above the capacity (40_framer.md R84, 60_exceptions.md R154). -/
theorem dispatchLength_tooLarge {d : U32} (s : State) (h : s.params.maxPayload < d.toNat) :
    dispatchLength d s = .next { report d .recordTooLarge 0#32 none s with st := .sDrain } := by
  rw [dispatchLength, if_pos h]
  rfl

/-- A length of 0 (40_framer.md R84). -/
theorem dispatchLength_zero (s : State) :
    dispatchLength 0#32 s = .next (toNextRecord (report s.dlen .headerTooShort 0#32 none s)) := by
  rw [dispatchLength, if_neg (by simp), if_pos rfl, completeRecord_short s (by simp)]

/-- A length of 1 to `MAX_PAYLOAD` (40_framer.md R84). -/
theorem dispatchLength_payload {d : U32} (s : State) (h : d.toNat ≤ s.params.maxPayload) (h0 : d ≠ 0#32) :
    dispatchLength d s = .next { s with st := .sPayload } := by
  rw [dispatchLength, if_neg (by omega), if_neg h0]

/-- Every way in which a completed length is dispatched; it always answers a next state. -/
theorem dispatchLength_cases (d : U32) (s : State) :
    (s.params.maxPayload < d.toNat ∧
      dispatchLength d s = .next { report d .recordTooLarge 0#32 none s with st := .sDrain }) ∨
    (d = 0#32 ∧ dispatchLength d s = .next (toNextRecord (report s.dlen .headerTooShort 0#32 none s))) ∨
    (d.toNat ≤ s.params.maxPayload ∧ d ≠ 0#32 ∧ dispatchLength d s = .next { s with st := .sPayload }) := by
  by_cases h : s.params.maxPayload < d.toNat
  · exact .inl ⟨h, dispatchLength_tooLarge s h⟩
  · by_cases h0 : d = 0#32
    · subst h0
      exact .inr (.inl ⟨rfl, dispatchLength_zero s⟩)
    · exact .inr (.inr ⟨by omega, h0, dispatchLength_payload s (by omega) h0⟩)

/-! ## The operations that take a symbol -/

/-- Every way in which `READ_COUNT` answers a next state (40_framer.md R81, R90). -/
theorem execReadCount_cases {sym : Symbol} {s t : State} (h : execReadCount sym s = .next t) :
    s.st = .sCount ∧
    ((sym = .eos ∧ t = endRun .truncatedStream 0#32 (quiet s)) ∨
    (∃ b, sym = .byte b ∧ s.bcnt ≠ 3#2 ∧ t = { countByte b s with bcnt := s.bcnt + 1#2 }) ∨
    (∃ b, sym = .byte b ∧ s.bcnt = 3#2 ∧ (countByte b s).pcount = 0#32 ∧
      t = endRun .ok 0#32 (emit (.count 0#32) { countByte b s with bcnt := 0#2 })) ∨
    (∃ b, sym = .byte b ∧ s.bcnt = 3#2 ∧ (countByte b s).pcount ≠ 0#32 ∧
      t = { emit (.count (countByte b s).pcount) { countByte b s with bcnt := 0#2 } with
            pidx := 1#32, st := .sLen })) := by
  unfold execReadCount at h
  split at h
  · cases h
  · rename_i hst
    refine ⟨not_not.mp hst, ?_⟩
    cases sym with
    | eos =>
      cases h
      exact .inl ⟨rfl, rfl⟩
    | byte b =>
      refine .inr ?_
      dsimp only at h
      split at h
      · rename_i hb
        cases h
        exact .inl ⟨b, rfl, hb, rfl⟩
      · rename_i hb
        refine .inr ?_
        split at h
        · rename_i hn
          cases h
          refine .inl ⟨b, rfl, not_not.mp hb, hn, ?_⟩
          simp only [countByte, hn]
        · rename_i hn
          cases h
          exact .inr ⟨b, rfl, not_not.mp hb, hn, rfl⟩

/-- Every way in which `READ_RECORD.LEN` answers (40_framer.md R83). -/
theorem execReadLen_cases {sym : Symbol} {s t : State} (h : execReadLen sym s = .next t) :
    s.st = .sLen ∧
    ((sym = .eos ∧ t = endRun .truncatedRecord s.pidx (quiet s)) ∨
    (∃ b, sym = .byte b ∧ s.bcnt ≠ 3#2 ∧ t = { lengthByte b s with bcnt := s.bcnt + 1#2 }) ∨
    (∃ b, sym = .byte b ∧ s.bcnt = 3#2 ∧
      dispatchLength (lengthDone b s).dlen (lengthDone b s) = .next t)) := by
  unfold execReadLen at h
  split at h
  · cases h
  · rename_i hst
    refine ⟨not_not.mp hst, ?_⟩
    cases sym with
    | eos =>
      cases h
      exact .inl ⟨rfl, rfl⟩
    | byte b =>
      refine .inr ?_
      dsimp only at h
      split at h
      · rename_i hb
        cases h
        exact .inl ⟨b, rfl, hb, rfl⟩
      · rename_i hb
        exact .inr ⟨b, rfl, not_not.mp hb, h⟩

/-- Every way in which `READ_RECORD.PAYLOAD` answers a next state (40_framer.md R85). -/
theorem execReadPayload_cases {sym : Symbol} {s t : State} (h : execReadPayload sym s = .next t) :
    s.st = .sPayload ∧
    ((sym = .eos ∧ t = endRun .truncatedRecord s.pidx (quiet s)) ∨
    (∃ b, sym = .byte b ∧ s.rcvd.toNat < s.params.maxPayload ∧ s.rcvd + 1#32 ≠ s.dlen ∧
      t = payloadByte b s) ∨
    (∃ b, sym = .byte b ∧ s.rcvd.toNat < s.params.maxPayload ∧ s.rcvd + 1#32 = s.dlen ∧
      completeRecord s.dlen (payloadByte b s) = .next t)) := by
  unfold execReadPayload at h
  split at h
  · cases h
  · rename_i hst
    refine ⟨not_not.mp hst, ?_⟩
    cases sym with
    | eos =>
      cases h
      exact .inl ⟨rfl, rfl⟩
    | byte b =>
      refine .inr ?_
      dsimp only at h
      split at h
      · cases h
      · rename_i s1 hs1
        obtain ⟨hlt, rfl⟩ := (memWrite_eq_some_iff _ _ _ _).mp hs1
        split at h
        · rename_i hd
          exact .inr ⟨b, rfl, hlt, hd, h⟩
        · rename_i hd
          cases h
          exact .inl ⟨b, rfl, hlt, hd, rfl⟩

/-- Every way in which `READ_RECORD.DRAIN` answers a next state (40_framer.md R86). -/
theorem execReadDrain_cases {sym : Symbol} {s t : State} (h : execReadDrain sym s = .next t) :
    s.st = .sDrain ∧
    ((sym = .eos ∧ t = endRun .truncatedRecord s.pidx (quiet s)) ∨
    (∃ b, sym = .byte b ∧ s.rcvd + 1#32 ≠ s.dlen ∧
      t = drainByte b s) ∨
    (∃ b, sym = .byte b ∧ s.rcvd + 1#32 = s.dlen ∧
      t = toNextRecord (drainByte b s))) := by
  unfold execReadDrain at h
  split at h
  · cases h
  · rename_i hst
    refine ⟨not_not.mp hst, ?_⟩
    cases sym with
    | eos =>
      cases h
      exact .inl ⟨rfl, rfl⟩
    | byte b =>
      refine .inr ?_
      dsimp only at h
      split at h
      · rename_i hd
        cases h
        exact .inr ⟨b, rfl, hd, rfl⟩
      · rename_i hd
        cases h
        exact .inl ⟨b, rfl, hd, rfl⟩

/-! ## The operations that only compute -/

/-- `give` changes nothing but the value. -/
@[simp] theorem give_next (v : Value) (s : State) : give v s = .next { s with ret := v } := rfl

/-- A lookup gives the name of the value in the table (42_protocol_lookup.md R120). -/
@[simp] theorem lookUp_next (p : Byte) (s : State) :
    lookUp p s = .next { s with ret := .name (protoName p) } := rfl

end Sys2Proof.Machine
end

