-- ==== Sys2Proof/Laws/Step.lean ====
section
/-!
SUPPORT. What a step fetches, and what the word it fetches decodes to; the cases of a step of the block.
-/

namespace Sys2Proof.Machine

/-- The word of a symbol decodes to the operation its phase selects. -/
@[simp] theorem decode_symbolWord (ph : Phase) (sym : Symbol) :
    decode (symbolWord ph sym) = phaseInstr ph sym := by
  cases sym <;> rfl

/-- A word that decodes is executed. -/
theorem runWord_of_decode {w : OpWord} {i : Instr} (s : State) (h : decode w = .ok i) :
    runWord w s = exec i s := by
  rw [runWord, h]

/-- A caller's operation is fetched first. -/
theorem fetch_call {s : State} {w : OpWord} {rest : List OpWord} (h : s.calls = w :: rest) :
    fetch s = .run w { s with calls := rest } := by
  rw [fetch, h]

/-- Otherwise the symbol at the cursor is. -/
theorem fetch_noCall {s : State} (h : s.calls = []) : fetch s = fetchSymbol (nextSymbol s) s := by
  rw [fetch, h]

/-- `S_END` takes no symbol (40_framer.md R93). -/
theorem fetchSymbol_end (sym : Symbol) {s : State} (h : s.st = .sEnd) :
    fetchSymbol sym s = .idle (quiet s) := if_pos h

/-- Every other phase takes the symbol. -/
theorem fetchSymbol_phase (sym : Symbol) {s : State} (h : s.st ≠ .sEnd) :
    fetchSymbol sym s = .run (symbolWord s.st sym) s := if_neg h

/-- The symbol at the cursor is a byte exactly when the cursor stands before the end (20_memory.md R44). -/
theorem nextSymbol_byte {s : State} (h : s.cur < s.stream.length) :
    nextSymbol s = .byte (s.stream[s.cur]) := by
  rw [nextSymbol, List.getElem?_eq_getElem h]

/-- At the end of the stream there is no byte (20_memory.md R44). -/
theorem nextSymbol_eos {s : State} (h : s.stream.length ≤ s.cur) : nextSymbol s = .eos := by
  rw [nextSymbol, List.getElem?_eq_none h]

/-- What running a fetched symbol can be: the operation of the phase, or nothing in `S_END`. -/
theorem runFetched_symbol_cases (sym : Symbol) {s t : State}
    (h : runFetched (fetchSymbol sym s) = .next t) :
    (s.st = .sCount ∧ execReadCount sym s = .next t) ∨ (s.st = .sLen ∧ execReadLen sym s = .next t) ∨
    (s.st = .sPayload ∧ execReadPayload sym s = .next t) ∨
    (s.st = .sDrain ∧ execReadDrain sym s = .next t) ∨ (s.st = .sEnd ∧ t = quiet s) := by
  by_cases he : s.st = .sEnd
  · rw [fetchSymbol_end sym he] at h
    cases h
    simp [he]
  · rw [fetchSymbol_phase sym he, runFetched, runWord, decode_symbolWord] at h
    cases hs : s.st with
    | sCount => rw [hs] at h; exact .inl ⟨rfl, h⟩
    | sLen => rw [hs] at h; exact .inr (.inl ⟨rfl, h⟩)
    | sPayload => rw [hs] at h; exact .inr (.inr (.inl ⟨rfl, h⟩))
    | sDrain => rw [hs] at h; exact .inr (.inr (.inr (.inl ⟨rfl, h⟩)))
    | sEnd => exact absurd hs he

/-- What a step of the block can be, when its caller asks nothing of it by name. -/
theorem step_cases {s t : State} (hc : s.calls = []) (h : step s = .next t) :
    (s.st = .sCount ∧ execReadCount (nextSymbol s) s = .next t) ∨
    (s.st = .sLen ∧ execReadLen (nextSymbol s) s = .next t) ∨
    (s.st = .sPayload ∧ execReadPayload (nextSymbol s) s = .next t) ∨
    (s.st = .sDrain ∧ execReadDrain (nextSymbol s) s = .next t) ∨ (s.st = .sEnd ∧ t = quiet s) := by
  rw [step, fetch_noCall hc] at h
  exact runFetched_symbol_cases _ h

end Sys2Proof.Machine
end

