-- ==== Sys2Proof/Laws/Events.lean ====
section
/-!
SUPPORT. What the events say, over appended lists, and the buffer predicates of Safety.lean.
-/

namespace Sys2Proof.Machine

@[simp] theorem recordIndices_append (a b : List Event) :
    recordIndices (a ++ b) = recordIndices a ++ recordIndices b := by
  induction a with
  | nil => rfl
  | cons e a ih => cases e <;> simp [recordIndices, ih]

@[simp] theorem announcedCounts_append (a b : List Event) :
    announcedCounts (a ++ b) = announcedCounts a ++ announcedCounts b := by
  induction a with
  | nil => rfl
  | cons e a ih => cases e <;> simp [announcedCounts, ih]

@[simp] theorem reportedEnds_append (a b : List Event) :
    reportedEnds (a ++ b) = reportedEnds a ++ reportedEnds b := by
  induction a with
  | nil => rfl
  | cons e a ih => cases e <;> simp [reportedEnds, ih]

@[simp] theorem resultAfter_append (r : ResultFile) (a b : List Event) :
    resultAfter r (a ++ b) = resultAfter (resultAfter r a) b := by
  induction a generalizing r with
  | nil => rfl
  | cons e a ih => cases e <;> simp [resultAfter, ih]

@[simp] theorem endAfter_append (r : EndCode × U32) (a b : List Event) :
    endAfter r (a ++ b) = endAfter (endAfter r a) b := by
  induction a generalizing r with
  | nil => rfl
  | cons e a ih => cases e <;> simp [endAfter, ih]

/-- The buffer predicate depends on the buffer and the parameters only. -/
theorem BufferOk.congr {s t : State} (h : BufferOk s) (hp : t.pbuf = s.pbuf) (hm : t.params = s.params) :
    BufferOk t := by
  unfold BufferOk at *
  rwa [hp, hm]

/-- An empty buffer is in order. -/
theorem BufferOk.of_empty {s : State} (h : s.pbuf = []) : BufferOk s := by
  simp [BufferOk, h, Memory.wf]

/-- Storing a byte within the capacity keeps the buffer in order. -/
theorem BufferOk.payloadByte {s : State} (b : Byte) (h : BufferOk s)
    (hm : s.rcvd.toNat < s.params.maxPayload) : BufferOk (payloadByte b s) := by
  refine ⟨Memory.wf_write _ _ h.1, fun c hc => ?_⟩
  rcases Memory.mem_fst_write (List.mem_map_of_mem (f := Prod.fst) hc) with he | he
  · rw [he]
    exact hm
  · obtain ⟨d, hd, he⟩ := List.mem_map.mp he
    rw [← he]
    exact h.2 d hd

/-- A buffer filled to its fill level and one byte more is filled to the next level. -/
theorem BufferFilled.payloadByte {s : State} (b : Byte) (h : BufferFilled s)
    (hr : (s.rcvd + 1#32).toNat = s.rcvd.toNat + 1) : BufferFilled (payloadByte b s) := by
  unfold BufferFilled at *
  rw [payloadByte_pbuf, payloadByte_rcvd, hr, Memory.write_append, List.map_append, h, List.range_succ]
  · rfl
  · rw [h]
    simp

/-- A filled buffer reads as a value exactly below its fill level. -/
theorem BufferFilled.read_isSome_iff {s : State} (h : BufferFilled s) (a : Nat) :
    (s.pbuf.read a).isSome ↔ a < s.rcvd.toNat := by
  rw [Memory.read_isSome_iff, h, List.mem_range]

/-- A filled buffer of 20 bytes or more can be decoded (20_memory.md R45). -/
theorem BufferFilled.memRead_isSome {s : State} (h : BufferFilled s) (hr : 20 ≤ s.rcvd.toNat) :
    ∃ bs, memRead 0 20 s = some bs := by
  refine ⟨(List.range 20).map fun k => (s.pbuf.read k).getD 0#8, ?_⟩
  refine (memRead_eq_some_iff _ _ _ _).mpr ⟨by omega, by simp, fun k hk => ?_⟩
  have hs : (s.pbuf.read k).isSome := (h.read_isSome_iff k).mpr (by omega)
  obtain ⟨b, hb⟩ := Option.isSome_iff_exists.mp hs
  simp [hk, hb]

end Sys2Proof.Machine
end

