-- ==== Sys2Proof/Laws/Header.lean ====
section
/-!
SUPPORT. The header vector and its twenty bytes are the same data (30_encoding.md R62), and the bits of the
assembled fields (30_encoding.md R65, R67).
-/

namespace Sys2Proof.Machine

/-- The bits of the first `k` bytes of a payload. -/
theorem getLsbD_hdrPrefix (b : Nat → Byte) (k i : Nat) (hk : k ≤ 20) :
    (hdrPrefix b k).getLsbD i = (decide (i < 8 * k) && (b (k - 1 - i / 8)).getLsbD (i % 8)) := by
  induction k generalizing i with
  | zero => simp [hdrPrefix]
  | succ k ih =>
    simp only [hdrPrefix, BitVec.getLsbD_or, BitVec.getLsbD_shiftLeft, ih (i - 8) (by omega),
      BitVec.getLsbD_setWidth]
    by_cases h8 : i < 8
    · have h1 : i / 8 = 0 := by omega
      have h2 : i % 8 = i := by omega
      have h3 : i < 160 := by omega
      have h4 : i < 8 * (k + 1) := by omega
      simp [h8, h1, h2, h3, h4]
    · have h1 : (i - 8) / 8 = i / 8 - 1 := by omega
      have h2 : (i - 8) % 8 = i % 8 := by omega
      have h3 : (b k).getLsbD i = false := BitVec.getLsbD_of_ge _ _ (by omega)
      have h4 : k - 1 - (i / 8 - 1) = k - i / 8 := by omega
      have h5 : decide (i - 8 < 8 * k) = decide (i < 8 * (k + 1)) := by
        simp only [decide_eq_decide]
        omega
      by_cases h6 : i < 160
      · simp [h8, h1, h2, h3, h4, h5, h6]
      · have h7 : ¬ i < 8 * (k + 1) := by omega
        simp [h6, h7, h3]

/-- Byte `n` of the vector of some bytes is byte `n` of them. -/
@[simp] theorem hdrByte_hdrOf (b : Nat → Byte) {n : Nat} (h : n < 20) : hdrByte (hdrOf b) n = b n := by
  apply BitVec.eq_of_getLsbD_eq
  intro i hi
  simp only [hdrByte, hdrOf, BitVec.getLsbD_extractLsb', getLsbD_hdrPrefix _ 20 _ le_rfl]
  have h1 : 20 - 1 - (152 - 8 * n + i) / 8 = n := by omega
  have h2 : (152 - 8 * n + i) % 8 = i := by omega
  have h3 : 152 - 8 * n + i < 8 * 20 := by omega
  simp [h1, h2, h3, hi]

/-- The vector of its own bytes is the vector. -/
@[simp] theorem hdrOf_hdrByte (h : Hdr) : hdrOf (hdrByte h) = h := by
  apply BitVec.eq_of_getLsbD_eq
  intro i hi
  simp only [hdrOf, getLsbD_hdrPrefix _ 20 _ le_rfl, hdrByte, BitVec.getLsbD_extractLsb']
  have h1 : 152 - 8 * (20 - 1 - i / 8) + i % 8 = i := by omega
  have h2 : i % 8 < 8 := by omega
  simp [h1, h2, hi]

/-- `hdrOf` depends on bytes 0 to 19 only. -/
theorem hdrOf_congr {b c : Nat → Byte} (h : ∀ n, n < 20 → b n = c n) : hdrOf b = hdrOf c := by
  rw [← hdrOf_hdrByte (hdrOf c)]
  apply BitVec.eq_of_getLsbD_eq
  intro i hi
  simp only [hdrOf, getLsbD_hdrPrefix _ 20 _ le_rfl]
  have hn : 20 - 1 - i / 8 < 20 := by omega
  rw [h _ hn, ← hdrByte_hdrOf c hn]
  rfl

/-- The decoded header depends on bytes 0 to 19 only. -/
theorem headerOf_congr {b c : Nat → Byte} (h : ∀ n, n < 20 → b n = c n) : headerOf b = headerOf c := by
  simp (disch := decide) only [headerOf, h]

/-- The bits of `be16`. -/
theorem getLsbD_be16 (h l : Byte) (i : Nat) :
    (be16 h l).getLsbD i = if i < 8 then l.getLsbD i else h.getLsbD (i - 8) := by
  simp only [be16, BitVec.getLsbD_or, BitVec.getLsbD_shiftLeft, BitVec.getLsbD_setWidth]
  by_cases h8 : i < 8
  · have h16 : i < 16 := by omega
    simp [h8, h16]
  · have hl : l.getLsbD i = false := BitVec.getLsbD_of_ge _ _ (by omega)
    by_cases h16 : i < 16
    · have h17 : i - 8 < 16 := by omega
      simp [h8, h16, hl, h17]
    · have hh : h.getLsbD (i - 8) = false := BitVec.getLsbD_of_ge _ _ (by omega)
      simp [h8, h16, hl, hh]

/-- `be16` is the concatenation, high byte first. -/
theorem be16_eq_append (h l : Byte) : be16 h l = h ++ l := by
  apply BitVec.eq_of_getLsbD_eq
  intro i hi
  rw [getLsbD_be16, BitVec.getLsbD_append]

/-- The value of `be16` (30_encoding.md R65). -/
theorem toNat_be16 (h l : Byte) : (be16 h l).toNat = 256 * h.toNat + l.toNat := by
  rw [be16_eq_append, BitVec.toNat_append, ← Nat.shiftLeft_add_eq_or_of_lt l.isLt, Nat.shiftLeft_eq]
  omega

end Sys2Proof.Machine
end

