-- ==== Sys2Proof/Laws/Operands.lean ====
section
/-!
SUPPORT. The bits and the values of the operand forms: the lanes of a count field (30_encoding.md R64), the
bytes of a number, the carrier bytes of a value (20_memory.md R42), and the fragment offset
(30_encoding.md R66).
-/

namespace Sys2Proof.Machine

/-- The mask of one lane. -/
theorem getLsbD_laneMask (j : Nat) : (255#32).getLsbD j = decide (j < 8) := by
  rw [show (255#32) = (BitVec.allOnes 8).setWidth 32 by decide, BitVec.getLsbD_setWidth,
    BitVec.getLsbD_allOnes]
  by_cases h : j < 8
  · have h32 : j < 32 := by omega
    simp [h, h32]
  · simp [h]

/-- A lane holds the byte written to it, and every other bit is as it was (30_encoding.md R64). -/
theorem getLsbD_setLane (e : Endian) {k : Nat} (b : Byte) (r : U32) (i : Nat) (hk : k < 4) :
    (setLane e k b r).getLsbD i =
      if laneShift e k ≤ i ∧ i < laneShift e k + 8 then b.getLsbD (i - laneShift e k)
      else r.getLsbD i := by
  have hs : laneShift e k ≤ 24 := by
    cases e <;> simp only [laneShift] <;> omega
  simp only [setLane, BitVec.getLsbD_or, BitVec.getLsbD_and, BitVec.getLsbD_not, BitVec.getLsbD_shiftLeft,
    BitVec.getLsbD_setWidth, getLsbD_laneMask]
  generalize laneShift e k = n at *
  by_cases hi : i < 32
  · by_cases h1 : n ≤ i
    · have h3 : ¬ i < n := by omega
      by_cases h2 : i < n + 8
      · have h4 : i - n < 8 := by omega
        have h5 : i - n < 32 := by omega
        simp [hi, h1, h2, h3, h4, h5]
      · have h4 : b.getLsbD (i - n) = false := BitVec.getLsbD_of_ge _ _ (by omega)
        have h5 : ¬ i - n < 8 := by omega
        simp [hi, h1, h2, h4, h5]
    · have h3 : i < n := by omega
      simp [hi, h1, h3]
  · rw [BitVec.getLsbD_of_ge r i (by omega)]
    have h2 : ¬ i < n + 8 := by omega
    simp [hi, h2]

/-- The bits of four bytes joined, most significant first. -/
theorem getLsbD_join4 (b3 b2 b1 b0 : Byte) (i : Nat) :
    (b3 ++ b2 ++ b1 ++ b0).getLsbD i =
      if i < 8 then b0.getLsbD i
      else if i < 16 then b1.getLsbD (i - 8)
      else if i < 24 then b2.getLsbD (i - 16)
      else b3.getLsbD (i - 24) := by
  simp only [BitVec.getLsbD_append, Nat.sub_sub]
  by_cases h1 : i < 8
  · simp [h1]
  · by_cases h2 : i < 16
    · have h3 : i - 8 < 8 := by omega
      simp [h1, h2, h3]
    · have h3 : ¬ i - 8 < 8 := by omega
      by_cases h4 : i < 24
      · have h5 : i - 16 < 8 := by omega
        simp [h1, h2, h3, h4, h5]
      · have h5 : ¬ i - 16 < 8 := by omega
        simp [h1, h2, h3, h4, h5]

/-- Four lanes written in order leave `u32_of`, whatever was there before (30_encoding.md R64). -/
theorem setLane_all (e : Endian) (b0 b1 b2 b3 : Byte) (r : U32) :
    setLane e 3 b3 (setLane e 2 b2 (setLane e 1 b1 (setLane e 0 b0 r))) = u32Of e b0 b1 b2 b3 := by
  apply BitVec.eq_of_getLsbD_eq
  intro i hi
  have hk : i < 8 ∨ (¬ i < 8 ∧ 8 ≤ i ∧ i < 16) ∨ (¬ i < 8 ∧ ¬ i < 16 ∧ 16 ≤ i ∧ i < 24) ∨
      (¬ i < 8 ∧ ¬ i < 16 ∧ ¬ i < 24 ∧ 24 ≤ i) := by omega
  cases e <;> simp (disch := decide) only [getLsbD_setLane, u32Of, getLsbD_join4, laneShift] <;>
    rcases hk with h | ⟨h1, h2, h3⟩ | ⟨h1, h2, h3, h4⟩ | ⟨h1, h2, h3, h4⟩
  · have h1 : ¬ 8 ≤ i := by omega
    have h2 : ¬ 16 ≤ i := by omega
    have h3 : ¬ 24 ≤ i := by omega
    simp [h, h1, h2, h3]
  · have h4 : ¬ 16 ≤ i := by omega
    have h5 : ¬ 24 ≤ i := by omega
    simp [h1, h2, h3, h4, h5]
  · have h5 : ¬ 24 ≤ i := by omega
    simp [h1, h2, h3, h4, h5]
  · simp [h1, h2, h3, h4, hi]
  · simp [h]
  · simp [h1, h2, h3]
  · simp [h1, h2, h3, h4]
  · simp [h1, h2, h3, h4, hi]

/-- The value of four bytes joined. -/
theorem toNat_join4 (b3 b2 b1 b0 : Byte) :
    (b3 ++ b2 ++ b1 ++ b0).toNat =
      16777216 * b3.toNat + 65536 * b2.toNat + 256 * b1.toNat + b0.toNat := by
  rw [BitVec.toNat_append, ← Nat.shiftLeft_add_eq_or_of_lt b0.isLt, Nat.shiftLeft_eq,
    BitVec.toNat_append, ← Nat.shiftLeft_add_eq_or_of_lt b1.isLt, Nat.shiftLeft_eq,
    BitVec.toNat_append, ← Nat.shiftLeft_add_eq_or_of_lt b2.isLt, Nat.shiftLeft_eq]
  omega

/-- A number is its own four bytes joined. -/
@[simp] theorem u32Of_byteAt (v : U32) :
    u32Of .be (byteAt v 3) (byteAt v 2) (byteAt v 1) (byteAt v 0) = v := by
  apply BitVec.eq_of_getLsbD_eq
  intro i hi
  simp only [u32Of, getLsbD_join4, byteAt, BitVec.getLsbD_extractLsb']
  split_ifs
  · simp [*]
  · have h1 : i - 8 < 8 := by omega
    have h2 : 8 + (i - 8) = i := by omega
    simp [h1, h2]
  · have h1 : i - 16 < 8 := by omega
    have h2 : 16 + (i - 16) = i := by omega
    simp [h1, h2]
  · have h1 : i - 24 < 8 := by omega
    have h2 : 24 + (i - 24) = i := by omega
    simp [h1, h2]

/-- The carrier bytes of a value that fits them are read back as the value (20_memory.md R42). -/
theorem carrierValue_carrierOf {v : U16} {n : Nat} (h : fitsCarrier v n = true) :
    carrierValue (carrierOf v n) = some (v, n) := by
  simp only [fitsCarrier, Bool.and_eq_true, Bool.or_eq_true, beq_iff_eq, decide_eq_true_eq] at h
  obtain ⟨rfl | rfl, h⟩ := h
  · have hv : (v.extractLsb' 0 8).setWidth 16 = v := by
      apply BitVec.eq_of_toNat_eq
      simp
      omega
    simp [carrierOf, carrierValue, hv]
  · have hv : v.extractLsb' 8 8 ++ v.extractLsb' 0 8 = v := by
      apply BitVec.eq_of_getLsbD_eq
      intro i hi
      simp only [BitVec.getLsbD_append, BitVec.getLsbD_extractLsb']
      by_cases h1 : i < 8
      · simp [h1]
      · have h2 : i - 8 < 8 := by omega
        have h3 : 8 + (i - 8) = i := by omega
        simp [h1, h2, h3]
    simp [carrierOf, carrierValue, hv]

/-- Bytes read as a carrier value fit it. -/
theorem fitsCarrier_of_carrierValue {bs : List Byte} {v : U16} {n : Nat} (h : carrierValue bs = some (v, n)) :
    fitsCarrier v n = true := by
  unfold carrierValue at h
  split at h <;> cases h
  · simp [fitsCarrier]
    omega
  · simp [fitsCarrier]
    omega

/-- The fragment offset is the two bytes big-endian with the three flag bits cleared. -/
theorem fragmentOffsetOf_eq (b6 b7 : Byte) :
    fragmentOffsetOf b6 b7 = (be16 (b6 &&& 0x1F#8) b7).setWidth 13 := by
  simp only [fragmentOffsetOf, be16]
  congr 3

end Sys2Proof.Machine
end

