-- ==== Sys2Proof/Laws/PerInstr.lean ====
section
/-!
SUPPORT. Statements about every instruction as syntax, one lemma per constructor. `EncodedLength`: the word
of an instruction has the number of bytes that its format gives (30_encoding.md R76): twenty for `IPV4HDR`,
one for `PROTO8`, at most one symbol for a phase.
-/

namespace Sys2Proof.Laws.EncodedLength

/-- The numbers of bytes that a selection admits. -/
def admits (sel : Select) (n : Nat) : Bool :=
  match sel with
  | .stream _ => decide (n ≤ 1)
  | .header => n == hdrLen
  | .field _ => n == hdrLen
  | .proto8 => n == 1
  | .op .dispatch => n == 4
  | .op .complete => n == 4
  | .op .nextRecord => n == 0
  | .op .openSource => decide (1 ≤ n)
  | .op .fmtHex => n == 1 || n == 2
  | .op .fmtDec => n == 4
  | .op (.fmtField _) => n == 1 || n == 2
  | .op .fmtAddr => n == 4
  | .op .fmtProto => n == 1

/-- The word of `i` has a length its format admits. -/
def Statement (i : Instr) : Prop := admits (encode i).sel (encode i).bytes.length = true

theorem version (b0 : Byte) : Statement (.version b0) := rfl

theorem headerLength (b0 : Byte) : Statement (.headerLength b0) := rfl

theorem typeOfService (b1 : Byte) : Statement (.typeOfService b1) := rfl

theorem totalLength (b2 b3 : Byte) : Statement (.totalLength b2 b3) := rfl

theorem identification (b4 b5 : Byte) : Statement (.identification b4 b5) := rfl

theorem flags (b6 : Byte) : Statement (.flags b6) := rfl

theorem fragmentOffset (b6 b7 : Byte) : Statement (.fragmentOffset b6 b7) := rfl

theorem timeToLive (b8 : Byte) : Statement (.timeToLive b8) := rfl

theorem protocol (b9 : Byte) : Statement (.protocol b9) := rfl

theorem headerChecksum (b10 b11 : Byte) : Statement (.headerChecksum b10 b11) := rfl

theorem sourceAddress (b12 b13 b14 b15 : Byte) : Statement (.sourceAddress b12 b13 b14 b15) := rfl

theorem destinationAddress (b16 b17 b18 b19 : Byte) : Statement (.destinationAddress b16 b17 b18 b19) := rfl

theorem decodeHeader (h : Hdr) : Statement (.decodeHeader h) := rfl

theorem protoIcmp : Statement .protoIcmp := rfl

theorem protoIgmp : Statement .protoIgmp := rfl

theorem protoTcp : Statement .protoTcp := rfl

theorem protoIgrp : Statement .protoIgrp := rfl

theorem protoUdp : Statement .protoUdp := rfl

theorem protoGre : Statement .protoGre := rfl

theorem protoEsp : Statement .protoEsp := rfl

theorem protoAh : Statement .protoAh := rfl

theorem protoSkip : Statement .protoSkip := rfl

theorem protoEigrp : Statement .protoEigrp := rfl

theorem protoOspf : Statement .protoOspf := rfl

theorem protoL2tp : Statement .protoL2tp := rfl

theorem protoNone (p : Byte) : Statement (.protoNone p) := rfl

theorem readCount (sym : Symbol) : Statement (.readCount sym) := by cases sym <;> rfl

theorem readLen (sym : Symbol) : Statement (.readLen sym) := by cases sym <;> rfl

theorem dispatch (d : U32) : Statement (.dispatch d) := rfl

theorem readPayload (sym : Symbol) : Statement (.readPayload sym) := by cases sym <;> rfl

theorem readDrain (sym : Symbol) : Statement (.readDrain sym) := by cases sym <;> rfl

theorem complete (plen : U32) : Statement (.complete plen) := rfl

theorem nextRecord : Statement .nextRecord := rfl

theorem openSource (source : Option (List Byte)) : Statement (.openSource source) := by
  cases source with
  | none => rfl
  | some bs => simp [Statement, encode, opWord, admits]

theorem fmtHex (v : U16) (n : Nat) : Statement (.fmtHex v n) := by
  by_cases h : n = 1 <;> simp [Statement, encode, opWord, admits, carrierOf, h]

theorem fmtDec (v : U32) : Statement (.fmtDec v) := rfl

theorem fmtField (f : Field) (v : U16) : Statement (.fmtField f v) := by
  by_cases h : (carrierBytes f).getD 2 = 1 <;> simp [Statement, encode, opWord, admits, carrierOf, h]

theorem fmtAddr (o0 o1 o2 o3 : Byte) : Statement (.fmtAddr o0 o1 o2 o3) := rfl

theorem fmtProto (p : Byte) : Statement (.fmtProto p) := rfl

end Sys2Proof.Laws.EncodedLength
end

