-- ==== Sys2Proof/Tests/Slice0.lean ====
section
/-!
SUPPORT. Tests of the model on the spec's own examples (95_test_vectors.md and the examples of each rule), the
refusals of WellFormed, the words of every row written out from 30_encoding.md R62, R64 and R76, and one
witness for the hypotheses of each statement of Obligations.lean.
-/

namespace Sys2Proof.Tests

open Sys2Proof Sys2Proof.Machine

/-! ## Small states and streams -/

/-- Header A of 95_test_vectors.md section 2.2. -/
def hdrA : List Byte :=
  [0x45, 0x00, 0x00, 0x54, 0x1C, 0x46, 0x40, 0x00, 0x40, 0x06] ++
  [0xB1, 0xE6, 0xC0, 0xA8, 0x01, 0x01, 0x0A, 0x00, 0x00, 0x01]

/-- Header E of 95_test_vectors.md section 2.2. -/
def hdrE : List Byte :=
  [0x6F, 0xA5, 0x12, 0x34, 0xAB, 0xCD, 0xE0, 0x01, 0x01, 0x11] ++
  [0xFF, 0xFE, 0x01, 0x02, 0x03, 0x04, 0x05, 0x06, 0x07, 0x08]

/-- The fields of header A, as 95_test_vectors.md section 2.2 lists them. -/
def fieldsA : IPv4Header :=
  { version := 4, headerLength := 5, typeOfService := 0, totalLength := 84, identification := 7238
    flags := 2, fragmentOffset := 0, timeToLive := 64, protocol := 6, protocolName := some .tcp
    headerChecksum := 45542, sourceAddress := 0xC0A80101, destinationAddress := 0x0A000001 }

/-- The fields of header E, as 95_test_vectors.md section 2.2 lists them. -/
def fieldsE : IPv4Header :=
  { version := 6, headerLength := 15, typeOfService := 165, totalLength := 4660, identification := 43981
    flags := 7, fragmentOffset := 1, timeToLive := 1, protocol := 17, protocolName := some .udp
    headerChecksum := 65534, sourceAddress := 0x01020304, destinationAddress := 0x05060708 }

/-- The block after reset, `LE`, with a stream presented. -/
def onStream (bytes : List Byte) : State := startOn .thisHardware bytes

/-- The same block built for `BE`. -/
def onStreamBE (bytes : List Byte) : State :=
  startOn { frameEndian := .be, maxPayload := 2048, hexCase := .lower } bytes

/-- In `S_COUNT` with `k` bytes of the count consumed. -/
def inCount (k : BitVec 2) (soFar : U32) : State := { onStream [] with bcnt := k, pcount := soFar }

/-- In `S_LEN` of record 1 of `n`, with `k` bytes of the length consumed. -/
def inLen (n : U32) (k : BitVec 2) (soFar : U32) : State :=
  { onStream [] with st := .sLen, pcount := n, pidx := 1, bcnt := k, dlen := soFar, events := [.count n] }

/-- In `S_PAYLOAD` of record 1 of `n`, with the given bytes stored of a declared length `d`. -/
def inPayload (n d : U32) (stored : List Byte) : State :=
  { onStream [] with
    st := .sPayload
    pcount := n
    pidx := 1
    dlen := d
    rcvd := BitVec.ofNat 32 stored.length
    pbuf := stored.zipIdx.map fun x => (x.2, x.1)
    events := [.count n] }

/-- In `S_DRAIN` of record 1 of `n`, with `k` bytes passed over of a declared length `d`. -/
def inDrain (n d k : U32) : State :=
  { onStream [] with
    st := .sDrain
    pcount := n
    pidx := 1
    dlen := d
    rcvd := k
    res := { ResultFile.zero with rIdx := 1, rDlen := d, rStat := .recordTooLarge }
    events := [.count n, .record 1 d .recordTooLarge 0 none] }

/-- In `S_END` after a run of no records. -/
def inEnd : State :=
  { onStream [] with st := .sEnd, events := [.count 0, .finish .ok 0], strobe := { endValid := true } }

/-- The value an operation gives. -/
def valueOf (i : Instr) (s : State) : Option Value := (nextState? (exec i s)).map State.ret

/-- The events of a run of at most `n` steps. -/
def eventsOf (n : Nat) (s : State) : Option (List Event) :=
  (nextState? (Host.Core.run Sys2Proof.core n s)).map State.events

/-! ## WellFormed refuses ill-formed terms -/

/-- `PROTO_NAME.none` is not the row of a named value (42_protocol_lookup.md R133). -/
theorem test_wf_protoNone_named : (Instr.protoNone 6).wf = false ∧ (Instr.protoNone 200).wf = true := by decide

/-- `FMT_HEX` takes one or two bytes, and a value that fits them (43_formatting.md R141). -/
theorem test_wf_fmtHex_width :
    (Instr.fmtHex 0 0).wf = false ∧ (Instr.fmtHex 0 3).wf = false ∧ (Instr.fmtHex 256 1).wf = false ∧
    (Instr.fmtHex 255 1).wf = true ∧ (Instr.fmtHex 65535 2).wf = true := by decide

/-- `FMT_FIELD` takes no address, and a value that fits the carrier (43_formatting.md R144). -/
theorem test_wf_fmtField_carrier :
    (Instr.fmtField .sourceAddress 0).wf = false ∧ (Instr.fmtField .destinationAddress 1).wf = false ∧
    (Instr.fmtField .version 256).wf = false ∧ (Instr.fmtField .version 255).wf = true ∧
    (Instr.fmtField .totalLength 65535).wf = true := by decide

/-! ## Words written out from the encodings -/

/-- The `version` row reads its bytes of header E. -/
theorem test_decode_version : decode { sel := .field .version, bytes := hdrE } = .ok (.version 0x6F) := rfl

/-- The `headerLength` row reads its bytes of header E. -/
theorem test_decode_headerLength :
    decode { sel := .field .headerLength, bytes := hdrE } =
      .ok (.headerLength 0x6F) := rfl

/-- The `typeOfService` row reads its bytes of header E. -/
theorem test_decode_typeOfService :
    decode { sel := .field .typeOfService, bytes := hdrE } =
      .ok (.typeOfService 0xA5) := rfl

/-- The `totalLength` row reads its bytes of header E. -/
theorem test_decode_totalLength :
    decode { sel := .field .totalLength, bytes := hdrE } =
      .ok (.totalLength 0x12 0x34) := rfl

/-- The `identification` row reads its bytes of header E. -/
theorem test_decode_identification :
    decode { sel := .field .identification, bytes := hdrE } =
      .ok (.identification 0xAB 0xCD) := rfl

/-- The `flags` row reads its bytes of header E. -/
theorem test_decode_flags : decode { sel := .field .flags, bytes := hdrE } = .ok (.flags 0xE0) := rfl

/-- The `fragmentOffset` row reads its bytes of header E. -/
theorem test_decode_fragmentOffset :
    decode { sel := .field .fragmentOffset, bytes := hdrE } =
      .ok (.fragmentOffset 0xE0 0x01) := rfl

/-- The `timeToLive` row reads its bytes of header E. -/
theorem test_decode_timeToLive :
    decode { sel := .field .timeToLive, bytes := hdrE } =
      .ok (.timeToLive 0x01) := rfl

/-- The `protocol` row reads its bytes of header E. -/
theorem test_decode_protocol :
    decode { sel := .field .protocol, bytes := hdrE } =
      .ok (.protocol 0x11) := rfl

/-- The `headerChecksum` row reads its bytes of header E. -/
theorem test_decode_headerChecksum :
    decode { sel := .field .headerChecksum, bytes := hdrE } =
      .ok (.headerChecksum 0xFF 0xFE) := rfl

/-- The `sourceAddress` row reads its bytes of header E. -/
theorem test_decode_sourceAddress :
    decode { sel := .field .sourceAddress, bytes := hdrE } =
      .ok (.sourceAddress 0x01 0x02 0x03 0x04) := rfl

/-- The `destinationAddress` row reads its bytes of header E. -/
theorem test_decode_destinationAddress :
    decode { sel := .field .destinationAddress, bytes := hdrE } =
      .ok (.destinationAddress 0x05 0x06 0x07 0x08) := rfl

/-- The `DECODE` row reads the whole vector, byte 0 in bits 159..152 (30_encoding.md R62). -/
theorem test_decode_header : decode { sel := .header, bytes := hdrE } =
    .ok (.decodeHeader 0x6FA51234ABCDE0010111FFFE0102030405060708#160) := rfl

theorem test_decode_protoIcmp : decode { sel := .proto8, bytes := [0b00000001] } = .ok .protoIcmp := rfl

theorem test_decode_protoIgmp : decode { sel := .proto8, bytes := [0b00000010] } = .ok .protoIgmp := rfl

theorem test_decode_protoTcp : decode { sel := .proto8, bytes := [0b00000110] } = .ok .protoTcp := rfl

theorem test_decode_protoIgrp : decode { sel := .proto8, bytes := [0b00001001] } = .ok .protoIgrp := rfl

theorem test_decode_protoUdp : decode { sel := .proto8, bytes := [0b00010001] } = .ok .protoUdp := rfl

theorem test_decode_protoGre : decode { sel := .proto8, bytes := [0b00101111] } = .ok .protoGre := rfl

theorem test_decode_protoEsp : decode { sel := .proto8, bytes := [0b00110010] } = .ok .protoEsp := rfl

theorem test_decode_protoAh : decode { sel := .proto8, bytes := [0b00110011] } = .ok .protoAh := rfl

theorem test_decode_protoSkip : decode { sel := .proto8, bytes := [0b00111001] } = .ok .protoSkip := rfl

theorem test_decode_protoEigrp : decode { sel := .proto8, bytes := [0b01011000] } = .ok .protoEigrp := rfl

theorem test_decode_protoOspf : decode { sel := .proto8, bytes := [0b01011001] } = .ok .protoOspf := rfl

theorem test_decode_protoL2tp : decode { sel := .proto8, bytes := [0b01110011] } = .ok .protoL2tp := rfl

/-- The default row takes what no other row matches (30_encoding.md R76). -/
theorem test_decode_protoNone : decode { sel := .proto8, bytes := [0xC8] } = .ok (.protoNone 0xC8) ∧
    decode { sel := .proto8, bytes := [0x00] } = .ok (.protoNone 0x00) := ⟨rfl, rfl⟩

theorem test_decode_readCount :
    decode { sel := .stream .sCount, bytes := [0x78] } = .ok (.readCount (.byte 0x78)) ∧
    decode { sel := .stream .sCount, bytes := [] } = .ok (.readCount .eos) := ⟨rfl, rfl⟩

theorem test_decode_readLen :
    decode { sel := .stream .sLen, bytes := [0x14] } = .ok (.readLen (.byte 0x14)) ∧
    decode { sel := .stream .sLen, bytes := [] } = .ok (.readLen .eos) := ⟨rfl, rfl⟩

theorem test_decode_readPayload :
    decode { sel := .stream .sPayload, bytes := [0x45] } = .ok (.readPayload (.byte 0x45)) ∧
    decode { sel := .stream .sPayload, bytes := [] } = .ok (.readPayload .eos) := ⟨rfl, rfl⟩

theorem test_decode_readDrain :
    decode { sel := .stream .sDrain, bytes := [0xAA] } = .ok (.readDrain (.byte 0xAA)) ∧
    decode { sel := .stream .sDrain, bytes := [] } = .ok (.readDrain .eos) := ⟨rfl, rfl⟩

/-- The `OP` rows, in the model's own byte order (log entry 8). -/
theorem test_decode_dispatch : decode { sel := .op .dispatch, bytes := [0x00, 0x00, 0x08, 0x01] } =
    .ok (.dispatch 2049) := rfl

theorem test_decode_complete : decode { sel := .op .complete, bytes := [0x00, 0x00, 0x00, 0x14] } =
    .ok (.complete 20) := rfl

theorem test_decode_nextRecord : decode { sel := .op .nextRecord, bytes := [] } = .ok .nextRecord := rfl

theorem test_decode_openSource :
    decode { sel := .op .openSource, bytes := [1, 0x02, 0x00] } = .ok (.openSource (some [0x02, 0x00])) ∧
    decode { sel := .op .openSource, bytes := [0] } = .ok (.openSource none) := ⟨rfl, rfl⟩

theorem test_decode_fmtHex :
    decode { sel := .op .fmtHex, bytes := [0x01, 0xFF] } = .ok (.fmtHex 0x01FF 2) ∧
    decode { sel := .op .fmtHex, bytes := [0xC8] } = .ok (.fmtHex 0xC8 1) := ⟨rfl, rfl⟩

theorem test_decode_fmtDec : decode { sel := .op .fmtDec, bytes := [0x00, 0x00, 0x01, 0xFF] } =
    .ok (.fmtDec 511) := rfl

theorem test_decode_fmtField :
    decode { sel := .op (.fmtField .identification), bytes := [0x1C, 0x46] } =
      .ok (.fmtField .identification 7238) ∧
    decode { sel := .op (.fmtField .sourceAddress), bytes := [0xC0, 0xA8] } = .error .noNumericForm :=
  ⟨rfl, rfl⟩

theorem test_decode_fmtAddr : decode { sel := .op .fmtAddr, bytes := [0xC0, 0xA8, 0x01, 0x01] } =
    .ok (.fmtAddr 0xC0 0xA8 0x01 0x01) := rfl

theorem test_decode_fmtProto : decode { sel := .op .fmtProto, bytes := [0x06] } = .ok (.fmtProto 6) := rfl

/-- Words of a wrong length, and any word in `S_END`, are rejected by name. -/
theorem test_decode_rejects :
    decode { sel := .header, bytes := hdrE.take 19 } = .error .wrongLength ∧
    decode { sel := .field .flags, bytes := hdrE ++ [0] } = .error .wrongLength ∧
    decode { sel := .proto8, bytes := [] } = .error .wrongLength ∧
    decode { sel := .stream .sLen, bytes := [1, 2] } = .error .wrongLength ∧
    decode { sel := .stream .sEnd, bytes := [1] } = .error .noOperationInEnd ∧
    decode { sel := .op .openSource, bytes := [2] } = .error .badSource := ⟨rfl, rfl, rfl, rfl, rfl, rfl⟩

/-! ## The parser: the single-field corner vectors of 95_test_vectors.md section 2.2 -/

theorem test_version :
    valueOf (.version 0xF0) (onStream []) = some (.u8 15) ∧
    valueOf (.version 0x0F) (onStream []) = some (.u8 0) := by decide

theorem test_headerLength :
    valueOf (.headerLength 0x45) (onStream []) = some (.u8 5) ∧
    valueOf (.headerLength 0xF0) (onStream []) = some (.u8 0) := by decide

theorem test_typeOfService :
    valueOf (.typeOfService 0xA5) (onStream []) = some (.u8 165) := by decide

theorem test_totalLength :
    valueOf (.totalLength 0x01 0x00) (onStream []) = some (.u16 256) ∧
    valueOf (.totalLength 0x80 0x00) (onStream []) = some (.u16 32768) := by decide

theorem test_identification :
    valueOf (.identification 0x1C 0x46) (onStream []) = some (.u16 7238) := by decide

theorem test_flags :
    valueOf (.flags 0x20) (onStream []) = some (.u8 1) ∧
    valueOf (.flags 0x9F) (onStream []) = some (.u8 4) := by decide

theorem test_fragmentOffset :
    valueOf (.fragmentOffset 0xFF 0xFF) (onStream []) = some (.u16 8191) ∧
    valueOf (.fragmentOffset 0x9F 0x00) (onStream []) = some (.u16 7936) := by decide

theorem test_timeToLive :
    valueOf (.timeToLive 0x40) (onStream []) = some (.u8 64) := by decide

theorem test_protocol :
    valueOf (.protocol 0xC8) (onStream []) = some (.u8 200) := by decide

theorem test_headerChecksum :
    valueOf (.headerChecksum 0xB1 0xE6) (onStream []) = some (.u16 45542) := by decide

theorem test_sourceAddress :
    valueOf (.sourceAddress 0xC0 0xA8 0x01 0x01) (onStream []) = some (.octets 0xC0 0xA8 0x01 0x01) := by decide

theorem test_destinationAddress :
    valueOf (.destinationAddress 0x0A 0x00 0x00 0x01) (onStream []) = some (.octets 0x0A 0x00 0x00 0x01) := by decide

/-- Headers A and E (95_test_vectors.md section 2.2). -/
theorem test_decodeHeader :
    valueOf (.decodeHeader (hdrOfBytes hdrA)) (onStream []) = some (.header fieldsA) ∧
    valueOf (.decodeHeader (hdrOfBytes hdrE)) (onStream []) = some (.header fieldsE) := by decide

/-- The addresses as the result registers carry them (41_ipv4_fields.md R111, R112). -/
theorem test_addressOf : addressOf 0xC0 0xA8 0x01 0x01 = 0xC0A80101 ∧ octet 0xC0A80101 1 = 0xA8 := by decide

/-! ## The lookup: 95_test_vectors.md section 2.3 -/

theorem test_protoIcmp :
    valueOf .protoIcmp (onStream []) = some (.name (some .icmp)) ∧ nameCode (some .icmp) = 1 := by decide

theorem test_protoIgmp :
    valueOf .protoIgmp (onStream []) = some (.name (some .igmp)) ∧ nameCode (some .igmp) = 2 := by decide

theorem test_protoTcp :
    valueOf .protoTcp (onStream []) = some (.name (some .tcp)) ∧ nameCode (some .tcp) = 3 := by decide

theorem test_protoIgrp :
    valueOf .protoIgrp (onStream []) = some (.name (some .igrp)) ∧ nameCode (some .igrp) = 4 := by decide

theorem test_protoUdp :
    valueOf .protoUdp (onStream []) = some (.name (some .udp)) ∧ nameCode (some .udp) = 5 := by decide

theorem test_protoGre :
    valueOf .protoGre (onStream []) = some (.name (some .gre)) ∧ nameCode (some .gre) = 6 := by decide

theorem test_protoEsp :
    valueOf .protoEsp (onStream []) = some (.name (some .esp)) ∧ nameCode (some .esp) = 7 := by decide

theorem test_protoAh :
    valueOf .protoAh (onStream []) = some (.name (some .ah)) ∧ nameCode (some .ah) = 8 := by decide

theorem test_protoSkip :
    valueOf .protoSkip (onStream []) = some (.name (some .skip)) ∧ nameCode (some .skip) = 9 := by decide

theorem test_protoEigrp :
    valueOf .protoEigrp (onStream []) = some (.name (some .eigrp)) ∧ nameCode (some .eigrp) = 10 := by decide

theorem test_protoOspf :
    valueOf .protoOspf (onStream []) = some (.name (some .ospf)) ∧ nameCode (some .ospf) = 11 := by decide

theorem test_protoL2tp :
    valueOf .protoL2tp (onStream []) = some (.name (some .l2tp)) ∧ nameCode (some .l2tp) = 12 := by decide

theorem test_protoNone :
    (∀ p ∈ [0, 3, 41, 48, 52, 58, 200, 255], valueOf (.protoNone p) (onStream []) = some (.name none)) ∧
    valueOf (.protoNone 6) (onStream []) = none := by decide

/-! ## The formatting: 95_test_vectors.md section 2.4 and the examples of 43_formatting.md -/

theorem test_fmtHex :
    valueOf (.fmtHex 511 2) (onStream []) = some (.text ['0', 'x', '0', '1', 'F', 'F']) ∧
    valueOf (.fmtHex 200 1) (onStreamBE []) = some (.text ['0', 'x', 'c', '8']) := by decide

theorem test_fmtDec :
    valueOf (.fmtDec 0) (onStream []) = some (.text ['0']) ∧
    valueOf (.fmtDec 511) (onStream []) = some (.text ['5', '1', '1']) := by decide

theorem test_fmtField :
    valueOf (.fmtField .identification 0) (onStream []) = some (.texts ['0', 'x', '0'] ['0']) ∧
    valueOf (.fmtField .totalLength 0) (onStream []) = some (.texts ['0', 'x', '0', '0', '0', '0'] ['0']) := by
  decide

theorem test_fmtAddr : valueOf (.fmtAddr 192 168 1 1) (onStream []) =
    some (.text ['1', '9', '2', '.', '1', '6', '8', '.', '1', '.', '1']) := by decide

theorem test_fmtProto :
    valueOf (.fmtProto 6) (onStream []) = some (.protoTexts ['0', 'x', '0', '6'] ['6'] (some .tcp)) ∧
    valueOf (.fmtProto 200) (onStream []) = some (.protoTexts ['0', 'x', 'C', '8'] ['2', '0', '0'] none) := by
  decide

/-- The sink reports the fields in the order of 43_formatting.md R148; the protocol of header A. -/
theorem test_headerReport :
    (headerReport .upper fieldsA).map Prod.fst = fieldOrder ∧
    fieldReport .upper fieldsA .protocol = .proto ['0', 'x', '0', '6'] ['6'] (some .tcp) := by decide

/-! ## The framer: 95_test_vectors.md sections 2.1 and 2.5 -/

/-- `78 56 34 12` lane by lane (95_test_vectors.md section 2.1). -/
theorem test_lanes :
    setLane .le 0 0x78 0xFFFFFFFF = 0xFFFFFF78 ∧ setLane .le 1 0x56 0xFFFFFF78 = 0xFFFF5678 ∧
    setLane .be 0 0x78 0xFFFFFFFF = 0x78FFFFFF ∧ setLane .be 3 0x12 0x785634FF = 0x78563412 := by decide

/-- The fourth byte of `02 00 00 00` (40_framer.md R81), and of `00 00 00 00` (vector F5). -/
theorem test_readCount :
    (nextState? (exec (.readCount (.byte 0)) (inCount 3 2))).map (fun t => (t.pcount, t.pidx, t.st, t.events)) =
      some (2, 1, .sLen, [.count 2]) ∧
    (nextState? (exec (.readCount (.byte 0)) (inCount 3 0))).map (fun t => (t.st, t.events)) =
      some (.sEnd, [.count 0, .finish .ok 0]) := by decide

/-- Vector F2: the stream ends after one byte of the count. -/
theorem test_readCount_eos :
    (nextState? (exec (.readCount .eos) (inCount 1 1))).map (fun t => (t.st, t.bcnt, t.endCode, t.events)) =
      some (.sEnd, 1, .truncatedStream, [.finish .truncatedStream 0]) := by decide

/-- Vector F9: an empty record completes on its fourth length byte. -/
theorem test_readLen :
    (nextState? (exec (.readLen (.byte 0)) (inLen 1 3 0))).map (fun t => (t.st, t.events)) =
      some (.sEnd, [.count 1, .record 1 0 .headerTooShort 0 none, .finish .ok 1]) ∧
    (nextState? (exec (.readLen .eos) (inLen 1 2 20))).map (fun t => (t.bcnt, t.dlen, t.events)) =
      some (2, 20, [.count 1, .finish .truncatedRecord 1]) := by decide

/-- 40_framer.md R84: 2049 is refused, 2048 is accepted. -/
theorem test_dispatch :
    (nextState? (exec (.dispatch 2049) (inLen 1 0 2049))).map (fun t => (t.st, t.res.rStat, t.res.rPlen)) =
      some (.sDrain, .recordTooLarge, 0) ∧
    (nextState? (exec (.dispatch 2048) (inLen 1 0 2048))).map State.st = some .sPayload := by decide

/-- Vector F11: the twentieth byte of header A completes the record with the fields of A. -/
theorem test_readPayload :
    (nextState? (exec (.readPayload (.byte 1)) (inPayload 1 20 (hdrA.take 19)))).map
        (fun t => (t.st, t.rcvd, t.res.hdr)) = some (.sEnd, 20, fieldsA) ∧
    (nextState? (exec (.readPayload (.byte 1)) (inPayload 1 20 (hdrA.take 19)))).map State.events =
      some [.count 1, .record 1 20 .ok 20 (some fieldsA), .finish .ok 1] := by decide

/-- Program P3: 10 of 50 bytes, then the end of the stream. -/
theorem test_readPayload_eos :
    (nextState? (exec (.readPayload .eos) (inPayload 3 50 (hdrA.take 10)))).map
        (fun t => (t.st, t.rcvd, t.dlen, t.endIdx)) = some (.sEnd, 10, 50, 1) := by decide

/-- Vector F15: the last drained byte ends the run with no second report. -/
theorem test_readDrain :
    (nextState? (exec (.readDrain (.byte 0xAA)) (inDrain 1 2049 2048))).map (fun t => (t.rcvd, t.pbuf, t.events)) =
      some (2049, [], [.count 1, .record 1 2049 .recordTooLarge 0 none, .finish .ok 1]) ∧
    (nextState? (exec (.readDrain (.byte 0xAA)) (inDrain 4 2049 2048))).map (fun t => (t.st, t.pidx)) =
      some (.sLen, 2) := by decide

/-- Vector F10: 19 bytes are too few, and no field of them is reported. -/
theorem test_complete :
    (nextState? (exec (.complete 19) (inPayload 1 19 (hdrA.take 19)))).map (fun t => (t.res.rStat, t.res.hdr)) =
      some (.headerTooShort, .zero) ∧
    (nextState? (exec (.complete 20) (inPayload 2 20 hdrE))).map (fun t => (t.st, t.pidx, t.res.hdr)) =
      some (.sLen, 2, fieldsE) := by decide

/-- 40_framer.md R89: `PCOUNT = 2`. -/
theorem test_nextRecord :
    (nextState? (exec .nextRecord (inLen 2 0 0))).map (fun t => (t.st, t.pidx)) = some (.sLen, 2) ∧
    (nextState? (exec .nextRecord { inLen 2 0 0 with pidx := 2 })).map (fun t => (t.st, t.endIdx)) =
      some (.sEnd, 2) := by decide

/-- 40_framer.md R80, 70_reset_and_hazards.md R180. -/
theorem test_openSource :
    (nextState? (exec (.openSource (some [1, 2])) inEnd)).map (fun t => (t.st, t.stream, t.events)) =
      some (.sCount, [1, 2], []) ∧
    valueOf (.openSource none) inEnd = some (.error .ioError) := by decide

/-! ## The step, the edge and the sink -/

/-- One step takes the byte at the cursor; the same bytes under `BE` fill the other lane. -/
theorem test_step :
    (nextState? (step (onStream [2, 0]))).map (fun t => (t.cur, t.bcnt, t.pcount)) = some (1, 1, 2) ∧
    (nextState? (step (onStreamBE [2, 0]))).map (fun t => (t.cur, t.bcnt, t.pcount)) =
      some (1, 1, 0x02000000) := by decide

/-- 70_reset_and_hazards.md R187: a byte goes before end-of-stream; the outputs show the strobe. -/
theorem test_edge :
    (nextState? (clockEdge { rst := false, inValid := true, inData := 0, inEos := true } (inCount 3 2))).map
        (fun t => ((outputs t).cntValid, (outputs t).cnt, (outputs t).done)) = some (true, 2, false) ∧
    (nextState? (clockEdge { rst := true, inValid := true, inData := 9, inEos := false } inEnd)).map
        (fun t => (t.st, (outputs t).endValid)) = some (.sCount, false) := by decide

/-- 60_exceptions.md R173. -/
theorem test_exitCode :
    exitCode .ok [.count 0, .finish .ok 0] = 0 ∧ exitCode .truncatedStream [] = 1 := by decide

/-- A table word is decoded and is what the next step runs. -/
theorem test_withFetchWord :
    decodeTableWord 8 6 = some .protoTcp ∧
    (nextState? (step (State.reset.withFetchWord 8 6))).map State.ret = some (.name (some .tcp)) ∧
    decodeTableWord 32 2 = some (.readCount (.byte 2)) ∧
    (nextState? (step (State.reset.withFetchWord 32 2))).map State.pcount = some 2 := by decide

/-! ## Witnesses: the hypotheses of each statement are met -/

/-- The invariant in `S_COUNT`, after three bytes of the count. -/
theorem inv_inCount : Machine.Inv (inCount 3 2) where
  noCalls := by decide
  buffer := ⟨by decide, by decide⟩
  ends := by decide
  counts := by decide
  endStatus := by decide
  inCount := by decide
  inRecord := by decide
  inPayload := by unfold BufferFilled; decide
  inDrain := by decide
  reported := by decide
  reportedDrain := by decide
  allReported := by decide
  truncatedEarly := by decide
  endLast := by decide

/-- The invariant in `S_LEN`, after three bytes of the length. -/
theorem inv_inLen : Machine.Inv (inLen 1 3 0) where
  noCalls := by decide
  buffer := ⟨by decide, by decide⟩
  ends := by decide
  counts := by decide
  endStatus := by decide
  inCount := by decide
  inRecord := by decide
  inPayload := by unfold BufferFilled; decide
  inDrain := by decide
  reported := by decide
  reportedDrain := by decide
  allReported := by decide
  truncatedEarly := by decide
  endLast := by decide

/-- The invariant in `S_PAYLOAD`, one byte before the last of header A. -/
theorem inv_inPayload : Machine.Inv (inPayload 1 20 (hdrA.take 19)) where
  noCalls := by decide
  buffer := ⟨by decide, by decide⟩
  ends := by decide
  counts := by decide
  endStatus := by decide
  inCount := by decide
  inRecord := by decide
  inPayload := fun _ => ⟨by decide, by decide, by decide, by decide, by unfold BufferFilled; decide⟩
  inDrain := by decide
  reported := by decide
  reportedDrain := by decide
  allReported := by decide
  truncatedEarly := by decide
  endLast := by decide

/-- The invariant in `S_PAYLOAD`, before the first of two bytes. -/
theorem inv_inPayload_first : Machine.Inv (inPayload 1 2 []) where
  noCalls := by decide
  buffer := ⟨by decide, by decide⟩
  ends := by decide
  counts := by decide
  endStatus := by decide
  inCount := by decide
  inRecord := by decide
  inPayload := fun _ => ⟨by decide, by decide, by decide, by decide, by unfold BufferFilled; decide⟩
  inDrain := by decide
  reported := by decide
  reportedDrain := by decide
  allReported := by decide
  truncatedEarly := by decide
  endLast := by decide

/-- The invariant in `S_DRAIN`, one byte before the last. -/
theorem inv_inDrain : Machine.Inv (inDrain 1 2049 2048) where
  noCalls := by decide
  buffer := ⟨by decide, by decide⟩
  ends := by decide
  counts := by decide
  endStatus := by decide
  inCount := by decide
  inRecord := by decide
  inPayload := by unfold BufferFilled; decide
  inDrain := by decide
  reported := by decide
  reportedDrain := by decide
  allReported := by decide
  truncatedEarly := by decide
  endLast := by decide

/-- The invariant in `S_END`. -/
theorem inv_inEnd : Machine.Inv inEnd where
  noCalls := by decide
  buffer := ⟨by decide, by decide⟩
  ends := by decide
  counts := by decide
  endStatus := by decide
  inCount := by decide
  inRecord := by decide
  inPayload := by unfold BufferFilled; decide
  inDrain := by decide
  reported := by decide
  reportedDrain := by decide
  allReported := by decide
  truncatedEarly := by decide
  endLast := by decide

/-- Events and registers agree while a record is drained. -/
theorem mirror_inDrain : Mirror (inDrain 1 2049 2048) where
  results := by decide
  ends := by decide

/-- A step that answers a next state: the form of the hypotheses below. -/
theorem next_of_isSome {r : Result} (h : (nextState? r).isSome = true) : ∃ t, r = .next t := by
  cases r with
  | next t => exact ⟨t, rfl⟩
  | fault f => cases h
  | refused f => cases h

theorem witness_ResetEdgeAbandonsRun :
    ∃ p : PortsIn, p.rst = true := ⟨{ rst := true, inValid := true, inData := 0, inEos := false }, rfl⟩

/-- The first, the third and the last byte of a count, and a count of zero and of two. -/
theorem witness_ReadCountStep :
    ((inCount 0 0).st = .sCount ∧ (inCount 0 0).bcnt ≠ 3#2) ∧
    ((inCount 2 0).st = .sCount ∧ (inCount 2 0).bcnt ≠ 3#2) ∧
    ((inCount 3 0).st = .sCount ∧ (inCount 3 0).bcnt = 3#2 ∧ 0 = setLane .le 3 0 (inCount 3 0).pcount) ∧
    ((inCount 3 2).st = .sCount ∧ (inCount 3 2).bcnt = 3#2 ∧ 2 = setLane .le 3 0 (inCount 3 2).pcount) := by
  decide

theorem witness_CountFieldLanes :
    ∃ k i : Nat, k < 4 ∧ (i < 8 * k ∨ 8 * k + 8 ≤ i) ∧ (i < 24 - 8 * k ∨ 32 - 8 * k ≤ i) :=
  ⟨3, 23, by decide⟩

theorem witness_CountFieldValue :
    ((inCount 0 7).bcnt = 0#2 ∧ (inCount 0 7).st = .sCount) ∧
    ((inLen 1 0 7).bcnt = 0#2 ∧ (inLen 1 0 7).st = .sLen) := by decide

/-- The third and the last byte of a length, and a length of zero and of 20. -/
theorem witness_ReadLenStep :
    ((inLen 1 2 20).st = .sLen ∧ (inLen 1 2 20).bcnt ≠ 3#2) ∧
    ((inLen 1 3 0).st = .sLen ∧ (inLen 1 3 0).bcnt = 3#2 ∧ 0 = setLane .le 3 0 (inLen 1 3 0).dlen) ∧
    ((inLen 1 3 20).st = .sLen ∧ (inLen 1 3 20).bcnt = 3#2 ∧ 20 = setLane .le 3 0 (inLen 1 3 20).dlen) := by
  decide

/-- `MAX_PAYLOAD + 1`, `MAX_PAYLOAD`, 1 and 0. -/
theorem witness_DispatchStep :
    (inLen 1 0 0).params.maxPayload < (2049#32).toNat ∧
    (2048#32 ≠ 0#32 ∧ (2048#32).toNat ≤ (inLen 1 0 0).params.maxPayload) ∧
    (1#32 ≠ 0#32 ∧ (1#32).toNat ≤ (inLen 1 0 0).params.maxPayload) ∧ (0#32 = 0#32) := by decide

/-- The first byte of two, and the last byte of header A. -/
theorem witness_PayloadStep :
    (∃ s, Machine.Inv s ∧ s.st = .sPayload ∧ s.rcvd + 1#32 ≠ s.dlen) ∧
    (∃ s, Machine.Inv s ∧ s.st = .sPayload ∧ s.rcvd + 1#32 = s.dlen) :=
  ⟨⟨_, inv_inPayload_first, by decide, by decide⟩, ⟨_, inv_inPayload, by decide, by decide⟩⟩

/-- A fill level at the capacity, which no state of the invariant has. -/
theorem witness_PayloadStopsAtCapacity :
    ∃ s : State, s.st = .sPayload ∧ s.params.maxPayload ≤ s.rcvd.toNat :=
  ⟨{ inPayload 1 4096 [] with rcvd := 2048 }, by decide⟩

/-- A byte before the last, the last of several records, and the last record. -/
theorem witness_DrainStep :
    ((inDrain 4 2049 0).st = .sDrain ∧ (inDrain 4 2049 0).rcvd + 1#32 ≠ (inDrain 4 2049 0).dlen) ∧
    ((inDrain 4 2049 2048).rcvd + 1#32 = (inDrain 4 2049 2048).dlen ∧
      (inDrain 4 2049 2048).pidx ≠ (inDrain 4 2049 2048).pcount) ∧
    ((inDrain 1 2049 2048).rcvd + 1#32 = (inDrain 1 2049 2048).dlen ∧
      (inDrain 1 2049 2048).pidx = (inDrain 1 2049 2048).pcount) := by decide

theorem witness_EndOfStreamTruncatesRecord :
    (inLen 1 0 0).st = .sLen ∧ (inPayload 1 2 []).st = .sPayload ∧ (inDrain 1 2049 0).st = .sDrain := by decide

/-- 19 and 20 bytes, the second with a filled buffer. -/
theorem witness_CompleteStep :
    (19#32).toNat < 20 ∧
    (20 ≤ (20#32).toNat ∧ 20 ≤ (inPayload 2 20 hdrA).rcvd.toNat ∧ hdrA.length = 20 ∧
      ∀ n, n < 20 → (inPayload 2 20 hdrA).pbuf.read n = some (hdrA.getD n 0#8)) := by decide

/-- A fill level of 19, and a hole in the buffer. -/
theorem witness_CompleteStopsOnUnfilledBuffer :
    (20 ≤ (20#32).toNat ∧ (inPayload 2 20 (hdrA.take 19)).rcvd.toNat < 20) ∧
    (20 ≤ (20#32).toNat ∧ ∃ n, n < 20 ∧ ({ inPayload 2 20 hdrA with pbuf := [] } : State).pbuf.read n = none) :=
  ⟨by decide, by decide, 0, by decide⟩

theorem witness_NextRecordAdvancesOrEnds :
    (inLen 2 0 0).pidx ≠ (inLen 2 0 0).pcount ∧ (inLen 1 0 0).pidx = (inLen 1 0 0).pcount := by decide

theorem witness_PhaseSelectsSymbolOperation :
    inEnd.st ≠ .sCount ∧ inEnd.st ≠ .sLen ∧ inEnd.st ≠ .sPayload ∧ inEnd.st ≠ .sDrain := by decide

theorem witness_DecodeTakesSlices : hdrA.length = 20 := by decide

theorem witness_FieldsDetermineHeader :
    ∃ t, exec (.decodeHeader (hdrOfBytes hdrA)) (onStream []) = .next t ∧ t.ret = .header fieldsA :=
  ⟨_, rfl, by decide⟩

/-- A buffer of 24 bytes, and one that differs from it at offset 23 only. -/
theorem witness_LaterBytesHaveNoEffect :
    (∀ a, a < 20 → (inPayload 1 24 (hdrA ++ [0xDE, 0xAD, 0xBE, 0xEF])).pbuf.read a =
      (inPayload 1 24 (hdrA ++ [0xDE, 0xAD, 0xBE, 0x00])).pbuf.read a) ∧
    ∃ t, exec (.complete 24) (inPayload 1 24 (hdrA ++ [0xDE, 0xAD, 0xBE, 0xEF])) = .next t :=
  ⟨by decide, next_of_isSome (by decide)⟩

theorem witness_NoStaleBytes : (inLen 1 3 0).st = .sLen ∧ (inLen 1 3 0).bcnt = 3#2 := by decide

theorem witness_UnnamedProtocols :
    (0 : Byte) ∉ ([1, 2, 6, 9, 17, 47, 50, 51, 57, 88, 89, 115] : List Byte) ∧
    (255 : Byte) ∉ ([1, 2, 6, 9, 17, 47, 50, 51, 57, 88, 89, 115] : List Byte) := by decide

/-- The least and the greatest value of one and of two bytes. -/
theorem witness_HexTextDenotesValue :
    (0#16).toNat < 256 ^ 1 ∧ (255#16).toNat < 256 ^ 1 ∧ (0#16).toNat < 256 ^ 2 ∧ (65535#16).toNat < 256 ^ 2 := by
  decide

/-- A field of one byte at its greatest value, and a zero-literal field at zero and above. -/
theorem witness_FieldTextHasZeroLiteral :
    ((Field.version, 1) ∈ ([(.version, 1), (.headerLength, 1), (.typeOfService, 1), (.totalLength, 2),
      (.identification, 2), (.flags, 1), (.fragmentOffset, 2), (.timeToLive, 1), (.protocol, 1),
      (.headerChecksum, 2)] : List (Field × Nat)) ∧ (255#16).toNat < 256 ^ 1) ∧
    ((Field.identification, 2) ∈ ([(.version, 1), (.headerLength, 1), (.typeOfService, 1), (.totalLength, 2),
      (.identification, 2), (.flags, 1), (.fragmentOffset, 2), (.timeToLive, 1), (.protocol, 1),
      (.headerChecksum, 2)] : List (Field × Nat)) ∧ (0#16).toNat < 256 ^ 2 ∧ (1#16).toNat < 256 ^ 2) := by decide

theorem witness_IllFormedOperandsAreRefused :
    (Instr.protoNone 6).wf = false ∧ (Instr.fmtHex 256 1).wf = false ∧
    (Instr.fmtField .sourceAddress 0).wf = false := by decide

/-- A byte at the cursor, the end of the stream, each phase, and an operation asked for by name. -/
theorem witness_StepRunsDecodedInstruction :
    ((Symbol.byte 2 = match (onStream [2]).stream[(onStream [2]).cur]? with | some b => .byte b | none => .eos) ∧
      (onStream [2]).calls = [] ∧ (onStream [2]).st = .sCount) ∧
    ((Symbol.eos = match (inLen 1 0 0).stream[(inLen 1 0 0).cur]? with | some b => .byte b | none => .eos) ∧
      (inLen 1 0 0).calls = [] ∧ (inLen 1 0 0).st = .sLen) ∧
    ((inPayload 1 2 []).calls = [] ∧ (inPayload 1 2 []).st = .sPayload) ∧
    ((inDrain 1 2049 0).calls = [] ∧ (inDrain 1 2049 0).st = .sDrain) ∧
    (inEnd.calls = [] ∧ inEnd.st = .sEnd) ∧
    decode (protoWord 6) = .ok .protoTcp :=
  ⟨by decide, by decide, by decide, by decide, by decide, rfl⟩

theorem witness_EndIsAbsorbing :
    inEnd.st = .sEnd ∧ inEnd.calls = [] ∧
    ∃ p : PortsIn, p.rst = false ∧ p.inValid = true :=
  ⟨by decide, by decide, { rst := false, inValid := true, inData := 1, inEos := true }, by decide⟩

/-- A byte, a byte with end-of-stream, end-of-stream alone, and neither, with a state of each phase. -/
theorem witness_EdgeRunsOfferedSymbol :
    (∃ p : PortsIn, p.rst = false ∧ p.inValid = true ∧ p.inEos = true) ∧
    (∃ p : PortsIn, p.rst = false ∧ p.inValid = false ∧ p.inEos = true) ∧
    (∃ p : PortsIn, p.rst = false ∧ p.inValid = false ∧ p.inEos = false) ∧
    (inCount 0 0).st = .sCount ∧ (inLen 1 0 0).st = .sLen ∧ (inPayload 1 2 []).st = .sPayload ∧
    (inDrain 1 2049 0).st = .sDrain :=
  ⟨⟨⟨false, true, 0, true⟩, by decide⟩, ⟨⟨false, false, 0, true⟩, by decide⟩,
    ⟨⟨false, false, 0, false⟩, by decide⟩, by decide⟩

/-- A step with a byte left, one at the end of the stream, and one in `S_END`. -/
theorem witness_StepMovesCursorByOneByte :
    ((onStream [2]).calls = [] ∧ ∃ t, step (onStream [2]) = .next t) ∧
    ((onStream []).calls = [] ∧ ∃ t, step (onStream []) = .next t) ∧
    (inEnd.calls = [] ∧ ∃ t, step inEnd = .next t) :=
  ⟨⟨by decide, next_of_isSome (by decide)⟩, ⟨by decide, next_of_isSome (by decide)⟩,
    ⟨by decide, next_of_isSome (by decide)⟩⟩

theorem witness_InputAndParametersAreNeverWritten :
    (∃ t, exec (.readCount (.byte 2)) (onStream [2]) = .next t) ∧
    (∀ bs, Instr.readCount (.byte 2) ≠ .openSource (some bs)) :=
  ⟨next_of_isSome (by decide), by simp⟩

theorem witness_ComputingChangesOnlyTheValue :
    onlyComputes (.flags 0x40) = true ∧ ∃ t, exec (.flags 0x40) (onStream []) = .next t :=
  ⟨by decide, next_of_isSome (by decide)⟩

/-- A step that writes `PCOUNT`, `BCNT`, `PIDX` and `ST`, one that writes `DLEN` and `RCVD`, one that adds 1
to `PIDX`, and one that reports a record and ends the run. -/
theorem witness_RegistersHaveTheirWriters :
    (∃ t, exec (.readCount (.byte 1)) (inCount 3 2) = .next t ∧ t.pcount ≠ (inCount 3 2).pcount ∧
      t.pidx ≠ (inCount 3 2).pidx ∧ t.bcnt ≠ (inCount 3 2).bcnt ∧ t.st ≠ (inCount 3 2).st) ∧
    (∃ t, exec (.readLen (.byte 0)) { inLen 1 3 0xFF000014 with rcvd := 5 } = .next t ∧
      t.dlen ≠ (inLen 1 3 0xFF000014).dlen ∧ t.rcvd ≠ 5) ∧
    (∃ t, exec (.readDrain (.byte 0)) (inDrain 4 2049 2048) = .next t ∧
      t.pidx ≠ (inDrain 4 2049 2048).pidx) ∧
    (∃ t, exec (.complete 19) (inPayload 1 19 []) = .next t ∧ t.res ≠ (inPayload 1 19 []).res ∧
      t.endIdx ≠ (inPayload 1 19 []).endIdx) :=
  ⟨⟨_, rfl, by decide⟩, ⟨_, rfl, by decide⟩, ⟨_, rfl, by decide⟩, ⟨_, rfl, by decide⟩⟩

/-- A payload byte, the last byte of a length and an earlier one, and an instruction that is neither. -/
theorem witness_BufferIsWrittenAtFillLevelOnly :
    (∃ t, exec (.readPayload (.byte 7)) (inPayload 1 2 []) = .next t) ∧
    (∃ t, exec (.readLen (.byte 0)) (inLen 1 3 0) = .next t) ∧
    (∃ t, exec (.readLen (.byte 0)) (inLen 1 2 0) = .next t) ∧
    (∃ t, exec (.readDrain (.byte 0)) (inDrain 1 2049 0) = .next t) :=
  ⟨next_of_isSome (by decide), next_of_isSome (by decide), next_of_isSome (by decide),
    next_of_isSome (by decide)⟩

theorem witness_EventsAreOnlyAppended :
    (∃ t, exec (.readLen (.byte 0)) (inLen 1 3 0) = .next t) ∧
    (∀ bs, Instr.readLen (.byte 0) ≠ .openSource (some bs)) :=
  ⟨next_of_isSome (by decide), by simp⟩

/-- A step from each phase, in states of the invariant. -/
theorem witness_StepKeepsInvariant :
    (Machine.Inv (inCount 3 2) ∧ ∃ t, step (inCount 3 2) = .next t) ∧
    (Machine.Inv (inLen 1 3 0) ∧ ∃ t, step (inLen 1 3 0) = .next t) ∧
    (Machine.Inv (inPayload 1 2 []) ∧ ∃ t, step (inPayload 1 2 []) = .next t) ∧
    (Machine.Inv (inDrain 1 2049 2048) ∧ ∃ t, step (inDrain 1 2049 2048) = .next t) ∧
    (Machine.Inv inEnd ∧ ∃ t, step inEnd = .next t) :=
  ⟨⟨inv_inCount, next_of_isSome (by decide)⟩, ⟨inv_inLen, next_of_isSome (by decide)⟩,
    ⟨inv_inPayload_first, next_of_isSome (by decide)⟩, ⟨inv_inDrain, next_of_isSome (by decide)⟩,
    ⟨inv_inEnd, next_of_isSome (by decide)⟩⟩

theorem witness_StepAnswersNextState : ∃ s, Machine.Inv s ∧ s.st = .sPayload :=
  ⟨_, inv_inPayload, by decide⟩

theorem witness_StepKeepsRegistersAndEventsEqual :
    Mirror (inDrain 1 2049 2048) ∧ ∃ t, step (inDrain 1 2049 2048) = .next t :=
  ⟨mirror_inDrain, next_of_isSome (by decide)⟩

/-- A buffer that holds 19 bytes, and the step on a last byte from the stream. -/
theorem witness_StepKeepsBufferWithinCapacity :
    BufferOk (inPayload 1 20 (hdrA.take 19)) ∧ ∃ t, step (inPayload 1 20 (hdrA.take 19)) = .next t :=
  ⟨inv_inPayload.buffer, next_of_isSome (by decide)⟩

theorem witness_RunReachesEnd : Machine.Inv (inLen 1 3 0) := inv_inLen

/-- A run that ends with `OK` (vector F9) and one that ends truncated after its count (vector F7). -/
theorem witness_SuccessReportsEveryRecord :
    (∃ t, Host.Core.run Sys2Proof.core 9 (startOn .thisHardware [1, 0, 0, 0, 0, 0, 0, 0]) = .next t ∧
      t.endCode = .ok) ∧
    (∃ t, Host.Core.run Sys2Proof.core 5 (startOn .thisHardware [1, 0, 0, 0]) = .next t ∧
      (recordIndices t.events).length < t.pcount.toNat ∧ announcedCounts t.events ≠ []) :=
  ⟨⟨_, rfl, by decide⟩, ⟨_, rfl, by decide⟩⟩

theorem witness_TrailingBytesHaveNoEffect :
    ∃ t, Host.Core.run Sys2Proof.core 5 (startOn .thisHardware [0, 0, 0, 0]) = .next t ∧ t.endCode = .ok ∧
      t.st = .sEnd := ⟨_, rfl, by decide⟩

theorem witness_DecodeInvertsEncode :
    (Instr.fmtHex 65535 2).wf = true ∧ (Instr.fmtField .fragmentOffset 8191).wf = true ∧
    (Instr.protoNone 255).wf = true ∧ (Instr.decodeHeader 0).wf = true := by decide

theorem witness_DecoderGivesWellFormed :
    decode { sel := .proto8, bytes := [200] } = .ok (.protoNone 200) := rfl

theorem witness_PlacedWordIsRunNext :
    decodeTableWord 8 6 = some .protoTcp ∧ decodeTableWord 160 0 = some (.decodeHeader 0) ∧
    decodeTableWord 32 2 = some (.readCount (.byte 2)) := by decide

end Sys2Proof.Tests
end

section
/-!
What an instruction answers, said once: one constructor of `Answers` for each way in which `exec` gives a next
state. The invariants and the frames below are proved by its cases.
-/

namespace Sys2Proof.Machine

/-! ## The cases of an instruction -/

/-- A declared length `d` is dispatched in `s0` by the instruction `i` of `s`: by `dispatch` itself, or after
the last byte of the length (40_framer.md R83, R84). -/
inductive DispatchedAt : U32 → Instr → State → State → Prop where
  | dispatch (d : U32) (s : State) : DispatchedAt d (.dispatch d) s s
  | lastLengthByte {s : State} (b : Byte) (hst : s.st = .sLen) (hb : s.bcnt = 3#2) :
      DispatchedAt (lengthDone b s).dlen (.readLen (.byte b)) s (lengthDone b s)

/-- A record of `plen` bytes completes in `s0` by the instruction `i` of `s`: by `complete` itself, after an
empty length, or after the last payload byte (40_framer.md R84, R85, R87). -/
inductive CompletedAt : U32 → Instr → State → State → Prop where
  | complete (plen : U32) (s : State) : CompletedAt plen (.complete plen) s s
  | empty {i : Instr} {s s0 : State} (h : DispatchedAt 0#32 i s s0) : CompletedAt 0#32 i s s0
  | lastPayloadByte {s : State} (b : Byte) (hst : s.st = .sPayload)
      (hm : s.rcvd.toNat < s.params.maxPayload) (hd : s.rcvd + 1#32 = s.dlen) :
      CompletedAt s.dlen (.readPayload (.byte b)) s (payloadByte b s)

/-- `next_record()` is reached in `s0` with no record to report: by `next_record` itself, or after the last
drained byte (40_framer.md R86, R89). -/
inductive PassedAt : Instr → State → State → Prop where
  | nextRecord (s : State) : PassedAt .nextRecord s s
  | lastDrainByte {s : State} (b : Byte) (hst : s.st = .sDrain) (hd : s.rcvd + 1#32 = s.dlen) :
      PassedAt (.readDrain (.byte b)) s (drainByte b s)

/-- Every way in which an instruction answers a next state. -/
inductive Answers : Instr → State → State → Prop where
  | computes {i : Instr} {s : State} (v : Value) : Answers i s { s with ret := v }
  | opens {s : State} (bs : List Byte) :
      Answers (.openSource (some bs)) s { resetOn bs s with ret := .stream }
  | countEos {s : State} (hst : s.st = .sCount) :
      Answers (.readCount .eos) s (endRun .truncatedStream 0#32 (quiet s))
  | countByte {s : State} (b : Byte) (hst : s.st = .sCount) (hb : s.bcnt ≠ 3#2) :
      Answers (.readCount (.byte b)) s { countByte b s with bcnt := s.bcnt + 1#2 }
  | countZero {s : State} (b : Byte) (hst : s.st = .sCount) (hb : s.bcnt = 3#2)
      (hn : (Machine.countByte b s).pcount = 0#32) :
      Answers (.readCount (.byte b)) s
        (endRun .ok 0#32 (emit (.count 0#32) { Machine.countByte b s with bcnt := 0#2 }))
  | countDone {s : State} (b : Byte) (hst : s.st = .sCount) (hb : s.bcnt = 3#2)
      (hn : (Machine.countByte b s).pcount ≠ 0#32) :
      Answers (.readCount (.byte b)) s
        { emit (.count (Machine.countByte b s).pcount) { Machine.countByte b s with bcnt := 0#2 } with
          pidx := 1#32, st := .sLen }
  | recordEos {i : Instr} {s : State}
      (hi : (s.st = .sLen ∧ i = .readLen .eos) ∨ (s.st = .sPayload ∧ i = .readPayload .eos) ∨
        (s.st = .sDrain ∧ i = .readDrain .eos)) :
      Answers i s (endRun .truncatedRecord s.pidx (quiet s))
  | lengthByte {s : State} (b : Byte) (hst : s.st = .sLen) (hb : s.bcnt ≠ 3#2) :
      Answers (.readLen (.byte b)) s { lengthByte b s with bcnt := s.bcnt + 1#2 }
  | payloadByte {s : State} (b : Byte) (hst : s.st = .sPayload)
      (hm : s.rcvd.toNat < s.params.maxPayload) (hd : s.rcvd + 1#32 ≠ s.dlen) :
      Answers (.readPayload (.byte b)) s (payloadByte b s)
  | drainByte {s : State} (b : Byte) (hst : s.st = .sDrain) (hd : s.rcvd + 1#32 ≠ s.dlen) :
      Answers (.readDrain (.byte b)) s (drainByte b s)
  | tooLarge {d : U32} {i : Instr} {s s0 : State} (h0 : DispatchedAt d i s s0)
      (hm : s0.params.maxPayload < d.toNat) :
      Answers i s { report d .recordTooLarge 0#32 none s0 with st := .sDrain }
  | startsPayload {d : U32} {i : Instr} {s s0 : State} (h0 : DispatchedAt d i s s0)
      (hm : d.toNat ≤ s0.params.maxPayload) (hd : d ≠ 0#32) : Answers i s { s0 with st := .sPayload }
  | completes {plen : U32} {i : Instr} {s s0 t : State} (h0 : CompletedAt plen i s s0)
      (hc : completeRecord plen s0 = .next t) : Answers i s t
  | passes {i : Instr} {s s0 : State} (h0 : PassedAt i s s0) : Answers i s (toNextRecord s0)

variable {i : Instr} {s t : State}

/-- An instruction that only computes gives a value (41_ipv4_fields.md R100, 43_formatting.md R140). -/
theorem exec_onlyComputes (hi : onlyComputes i = true) (h : exec i s = .next t) :
    ∃ v, t = { s with ret := v } := by
  cases i with
  | protoNone p =>
    rw [exec, execProtoNone] at h
    split at h
    · cases h; exact ⟨_, rfl⟩
    · cases h
  | fmtHex v n =>
    rw [exec, execFmtHex] at h
    split at h
    · cases h; exact ⟨_, rfl⟩
    · cases h
  | fmtField f v =>
    rw [exec, execFmtField] at h
    split at h
    · cases h
    · split at h
      · cases h; exact ⟨_, rfl⟩
      · cases h
  | readCount | readLen | dispatch | readPayload | readDrain | complete | nextRecord | openSource => cases hi
  | _ => cases h; exact ⟨_, rfl⟩

/-- The cases of a dispatched length are cases of the instruction that dispatches it. -/
theorem DispatchedAt.answers {d : U32} {s0 : State} (h0 : DispatchedAt d i s s0)
    (h : dispatchLength d s0 = .next t) : Answers i s t := by
  rcases dispatchLength_cases d s0 with ⟨hm, he⟩ | ⟨rfl, he⟩ | ⟨hm, hd, he⟩
  · rw [he] at h
    cases h
    exact .tooLarge h0 hm
  · exact .completes (.empty h0) (by rw [completeRecord_short s0 (by decide), ← he, h])
  · rw [he] at h
    cases h
    exact .startsPayload h0 hm hd

theorem answers_of_execReadCount {sym : Symbol} (h : execReadCount sym s = .next t) :
    Answers (.readCount sym) s t := by
  obtain ⟨hst, ⟨rfl, rfl⟩ | ⟨b, rfl, hb, rfl⟩ | ⟨b, rfl, hb, hn, rfl⟩ | ⟨b, rfl, hb, hn, rfl⟩⟩ :=
    execReadCount_cases h
  · exact .countEos hst
  · exact .countByte b hst hb
  · exact .countZero b hst hb hn
  · exact .countDone b hst hb hn

theorem answers_of_execReadLen {sym : Symbol} (h : execReadLen sym s = .next t) :
    Answers (.readLen sym) s t := by
  obtain ⟨hst, ⟨rfl, rfl⟩ | ⟨b, rfl, hb, rfl⟩ | ⟨b, rfl, hb, hd⟩⟩ := execReadLen_cases h
  · exact .recordEos (.inl ⟨hst, rfl⟩)
  · exact .lengthByte b hst hb
  · exact (DispatchedAt.lastLengthByte b hst hb).answers hd

theorem answers_of_execReadPayload {sym : Symbol} (h : execReadPayload sym s = .next t) :
    Answers (.readPayload sym) s t := by
  obtain ⟨hst, ⟨rfl, rfl⟩ | ⟨b, rfl, hm, hd, rfl⟩ | ⟨b, rfl, hm, hd, hc⟩⟩ := execReadPayload_cases h
  · exact .recordEos (.inr (.inl ⟨hst, rfl⟩))
  · exact .payloadByte b hst hm hd
  · exact .completes (.lastPayloadByte b hst hm hd) hc

theorem answers_of_execReadDrain {sym : Symbol} (h : execReadDrain sym s = .next t) :
    Answers (.readDrain sym) s t := by
  obtain ⟨hst, ⟨rfl, rfl⟩ | ⟨b, rfl, hd, rfl⟩ | ⟨b, rfl, hd, rfl⟩⟩ := execReadDrain_cases h
  · exact .recordEos (.inr (.inr ⟨hst, rfl⟩))
  · exact .drainByte b hst hd
  · exact .passes (.lastDrainByte b hst hd)

/-- Whatever instruction answers a next state, it does so in one of the ways of `Answers`. -/
theorem answers_of_exec (h : exec i s = .next t) : Answers i s t := by
  cases i with
  | readCount sym => exact answers_of_execReadCount h
  | readLen sym => exact answers_of_execReadLen h
  | dispatch d => exact (DispatchedAt.dispatch d s).answers h
  | readPayload sym => exact answers_of_execReadPayload h
  | readDrain sym => exact answers_of_execReadDrain h
  | complete plen => exact .completes (.complete plen s) h
  | nextRecord => cases h; exact .passes (.nextRecord s)
  | openSource source =>
    cases source with
    | none => cases h; exact .computes _
    | some bs => cases h; exact .opens bs
  | _ =>
    obtain ⟨v, rfl⟩ := exec_onlyComputes rfl h
    exact .computes v

/-- What a step is, an operation asked for by name included: nothing but inactive strobes, or an instruction,
run at the state less the operation taken from the calls. -/
theorem step_answers (h : step s = .next t) :
    t = quiet s ∨ ∃ i calls, Answers i { s with calls := calls } t := by
  cases hc : s.calls with
  | nil =>
    have hs : { s with calls := s.calls } = s := rfl
    rcases step_cases hc h with ⟨-, h⟩ | ⟨-, h⟩ | ⟨-, h⟩ | ⟨-, h⟩ | ⟨-, h⟩
    · exact .inr ⟨_, _, hs ▸ answers_of_execReadCount h⟩
    · exact .inr ⟨_, _, hs ▸ answers_of_execReadLen h⟩
    · exact .inr ⟨_, _, hs ▸ answers_of_execReadPayload h⟩
    · exact .inr ⟨_, _, hs ▸ answers_of_execReadDrain h⟩
    · exact .inl h
  | cons w rest =>
    rw [step, fetch_call hc, runFetched, runWord] at h
    split at h
    · exact .inr ⟨_, rest, answers_of_exec h⟩
    · cases h

end Sys2Proof.Machine
end

section
/-!
Two predicates that every step keeps, an operation asked for by name included: the agreement of events and
registers (10_state.md R30), and the buffer within its capacity (10_state.md R33). Each is kept by every shared
operation, hence by every case of `Answers`.
-/

namespace Sys2Proof.Machine

variable {i : Instr} {s s0 t : State}

/-! ## Events and registers (10_state.md R30) -/

/-- The agreement depends on the result registers, the end status and the events only. -/
theorem Mirror.congr (h : Mirror s) (hr : t.res = s.res := by rfl)
    (hc : t.endCode = s.endCode := by rfl) (hi : t.endIdx = s.endIdx := by rfl)
    (he : t.events = s.events := by rfl) : Mirror t := by
  obtain ⟨hres, hends⟩ := h
  exact ⟨by rw [hr, he, hres], by rw [hc, hi, he, hends]⟩

/-- The announcement of the count is mirrored by no result register. -/
theorem Mirror.emitCount (n : U32) (h : Mirror s) : Mirror (emit (.count n) s) := by
  obtain ⟨hres, hends⟩ := h
  exact ⟨by simpa [resultAfter] using hres, by simpa [endAfter] using hends⟩

theorem Mirror.report (d : U32) (x : RecStat) (n : U32) (hdr : Option IPv4Header) (h : Mirror s) :
    Mirror (report d x n hdr s) := by
  obtain ⟨-, hends⟩ := h
  exact ⟨by simp [resultAfter], by simpa [endAfter] using hends⟩

theorem Mirror.endRun (c : EndCode) (idx : U32) (h : Mirror s) : Mirror (endRun c idx s) := by
  obtain ⟨hres, -⟩ := h
  exact ⟨by simpa [resultAfter] using hres, by simp [endAfter]⟩

theorem Mirror.toNextRecord (h : Mirror s) : Mirror (toNextRecord s) := by
  rcases toNextRecord_cases s with ⟨-, he⟩ | ⟨-, he⟩ <;> rw [he]
  · exact h.endRun _ _
  · exact h.congr

theorem Mirror.dispatchedAt {d : U32} (h : Mirror s) (h0 : DispatchedAt d i s s0) : Mirror s0 := by
  cases h0 with
  | dispatch => exact h
  | lastLengthByte => exact h.congr

theorem Mirror.completedAt {plen : U32} (h : Mirror s) (h0 : CompletedAt plen i s s0) : Mirror s0 := by
  cases h0 with
  | complete => exact h
  | empty h0 => exact h.dispatchedAt h0
  | lastPayloadByte => exact h.congr

theorem Mirror.passedAt (h : Mirror s) (h0 : PassedAt i s s0) : Mirror s0 := by
  cases h0 with
  | nextRecord => exact h
  | lastDrainByte => exact h.congr

/-- Every instruction keeps the agreement of events and registers. -/
theorem Mirror.answers (h : Mirror s) (ha : Answers i s t) : Mirror t := by
  cases ha with
  | opens => exact ⟨rfl, rfl⟩
  | countEos | recordEos => exact (h.congr (t := quiet s)).endRun _ _
  | countZero b => exact ((h.congr (t := { countByte b s with bcnt := 0#2 })).emitCount _).endRun _ _
  | countDone b =>
    exact ((h.congr (t := { countByte b s with bcnt := 0#2 })).emitCount _).congr
  | tooLarge h0 => exact ((h.dispatchedAt h0).report _ _ _ _).congr
  | startsPayload h0 => exact (h.dispatchedAt h0).congr
  | completes h0 hc =>
    obtain ⟨stat, hdr, rfl⟩ := completeRecord_reports hc
    exact ((h.completedAt h0).report _ _ _ _).toNextRecord
  | passes h0 => exact (h.passedAt h0).toNextRecord
  | computes | countByte | lengthByte | payloadByte | drainByte => exact h.congr

/-- Settles O44: every instruction keeps the agreement, and so do inactive strobes. -/
theorem stepKeepsRegistersAndEventsEqual : Obligations.StepKeepsRegistersAndEventsEqual := by
  intro s t h hstep
  rcases step_answers hstep with rfl | ⟨i, calls, ha⟩
  · exact h.congr
  · exact (h.congr (t := { s with calls := calls })).answers ha

/-! ## The buffer (10_state.md R33) -/

theorem BufferOk.dispatchedAt {d : U32} (h : BufferOk s) (h0 : DispatchedAt d i s s0) : BufferOk s0 := by
  cases h0 with
  | dispatch => exact h
  | lastLengthByte => exact .of_empty rfl

theorem BufferOk.completedAt {plen : U32} (h : BufferOk s) (h0 : CompletedAt plen i s s0) : BufferOk s0 := by
  cases h0 with
  | complete => exact h
  | empty h0 => exact h.dispatchedAt h0
  | lastPayloadByte b hst hm => exact h.payloadByte b hm

theorem BufferOk.passedAt (h : BufferOk s) (h0 : PassedAt i s s0) : BufferOk s0 := by
  cases h0 with
  | nextRecord => exact h
  | lastDrainByte => exact h.congr rfl rfl

/-- Every instruction keeps the buffer in order: the only store is that of a payload byte, which answers below
the capacity alone. -/
theorem BufferOk.answers (h : BufferOk s) (ha : Answers i s t) : BufferOk t := by
  cases ha with
  | opens => exact .of_empty rfl
  | payloadByte b hst hm => exact h.payloadByte b hm
  | tooLarge h0 | startsPayload h0 => exact (h.dispatchedAt h0).congr rfl rfl
  | completes h0 hc =>
    obtain ⟨stat, hdr, rfl⟩ := completeRecord_reports hc
    exact (h.completedAt h0).congr (by simp) (by simp)
  | passes h0 => exact (h.passedAt h0).congr (by simp) (by simp)
  | computes | countEos | countByte | countZero | countDone | recordEos | lengthByte | drainByte =>
    exact h.congr rfl rfl

/-- Settles O45: every instruction keeps the buffer in order, and inactive strobes do not touch it. -/
theorem stepKeepsBufferWithinCapacity : Obligations.StepKeepsBufferWithinCapacity := by
  intro s t h hstep
  rcases step_answers hstep with rfl | ⟨i, calls, ha⟩
  · exact h.congr rfl rfl
  · exact (h.congr (t := { s with calls := calls }) rfl rfl).answers ha

end Sys2Proof.Machine
end

section
/-!
The invariant of 10_state.md R35 is kept by every step. `Running` is what it says in all three phases of a
record; each phase adds its own facts about the length, the fill level and the reported indices.
-/

namespace Sys2Proof.Machine

variable {s t : State}

/-! ## Building the invariant, phase by phase -/

/-- R35 before the count is complete: nothing is reported and nothing but the count is written. -/
theorem Inv.of_count (hc : s.calls = []) (hb : BufferOk s) (hst : s.st = .sCount) (hev : s.events = [])
    (hcode : s.endCode = .ok) (hidx : s.endIdx = 0#32) (hp : s.pidx = 0#32) (hr : s.rcvd = 0#32) : Inv s where
  noCalls := hc
  buffer := hb
  ends := by simp [hst, hev, reportedEnds]
  counts := .inl (by simp [hev, announcedCounts])
  endStatus _ := ⟨hcode, hidx⟩
  inCount _ := ⟨hp, hr, hev⟩
  inRecord h := by simp [hst] at h
  inPayload h := by simp [hst] at h
  inDrain h := by simp [hst] at h
  reported h := by simp [hst] at h
  reportedDrain h := by simp [hst] at h
  allReported h := by simp [hst] at h
  truncatedEarly h := by simp [hst] at h
  endLast h := by simp [hst] at h

/-- What R35 says in all three phases of a record (item 3, with R13, R24 and R29). -/
structure Running (s : State) : Prop where
  noCalls : s.calls = []
  noEnd : reportedEnds s.events = []
  announced : announcedCounts s.events = [s.pcount]
  countFirst : s.events.head? = some (.count s.pcount)
  endCode : s.endCode = .ok
  endIdx : s.endIdx = 0#32
  pidxPos : 1 ≤ s.pidx.toNat
  pidxLe : s.pidx.toNat ≤ s.pcount.toNat

/-- The invariant has it in the three phases. -/
theorem Inv.running (h : Inv s) (hst : s.st = .sLen ∨ s.st = .sPayload ∨ s.st = .sDrain) : Running s := by
  obtain ⟨hpos, hle, hann, hhead⟩ := h.inRecord hst
  have hne : s.st ≠ .sEnd := by rcases hst with h | h | h <;> simp [h]
  obtain ⟨hcode, hidx⟩ := h.endStatus hne
  exact ⟨h.noCalls, by rw [h.ends, if_neg hne], hann, hhead, hcode, hidx, hpos, hle⟩

/-- It depends on the calls, the events, the count, the index and the end status only. -/
theorem Running.congr (h : Running s) (hc : t.calls = s.calls := by rfl)
    (hev : t.events = s.events := by rfl) (hn : t.pcount = s.pcount := by rfl)
    (hp : t.pidx = s.pidx := by rfl) (hcode : t.endCode = s.endCode := by rfl)
    (hidx : t.endIdx = s.endIdx := by rfl) : Running t := by
  obtain ⟨h1, h2, h3, h4, h5, h6, h7, h8⟩ := h
  constructor <;> simpa only [hc, hev, hn, hp, hcode, hidx]

/-- A record event is neither an end nor a count, so reporting a record leaves the run as it is. -/
theorem Running.report (d : U32) (x : RecStat) (n : U32) (hdr : Option IPv4Header) (h : Running s) :
    Running (report d x n hdr s) where
  noCalls := h.noCalls
  noEnd := by simp [h.noEnd, reportedEnds]
  announced := by simp [h.announced, announcedCounts]
  countFirst := by simp [h.countFirst]
  endCode := h.endCode
  endIdx := h.endIdx
  pidxPos := h.pidxPos
  pidxLe := h.pidxLe

/-- R35 item 7, as a step: the indices below `PIDX` and that of the record just reported. -/
theorem Running.indices_report (d : U32) (x : RecStat) (n : U32) (hdr : Option IPv4Header) (h : Running s)
    (hrec : recordIndices s.events = List.range' 1 (s.pidx.toNat - 1)) :
    recordIndices (Machine.report d x n hdr s).events = List.range' 1 s.pidx.toNat := by
  obtain ⟨k, hk⟩ := Nat.exists_eq_add_of_le' h.pidxPos
  simp [hrec, recordIndices, hk, List.range'_1_concat, Nat.add_comm]

/-- R35 inside a record: `Running`, and what the phase adds. -/
theorem Inv.of_running (h : Running s) (hb : BufferOk s)
    (hst : s.st = .sLen ∨ s.st = .sPayload ∨ s.st = .sDrain)
    (hpay : s.st = .sPayload → s.bcnt = 0#2 ∧ 1 ≤ s.dlen.toNat ∧ s.dlen.toNat ≤ s.params.maxPayload ∧
      s.rcvd.toNat < s.dlen.toNat ∧ BufferFilled s)
    (hdrain : s.st = .sDrain → s.bcnt = 0#2 ∧ s.params.maxPayload < s.dlen.toNat ∧
      s.rcvd.toNat < s.dlen.toNat ∧ s.pbuf = [] ∧
        s.events.getLast? = some (.record s.pidx s.dlen .recordTooLarge 0#32 none))
    (hrec : s.st = .sLen ∨ s.st = .sPayload → recordIndices s.events = List.range' 1 (s.pidx.toNat - 1))
    (hrecDrain : s.st = .sDrain → recordIndices s.events = List.range' 1 s.pidx.toNat) : Inv s := by
  have hne : s.st ≠ .sEnd := by rcases hst with h | h | h <;> simp [h]
  exact {
    noCalls := h.noCalls
    buffer := hb
    ends := by rw [if_neg hne, h.noEnd]
    counts := .inr h.announced
    endStatus := fun _ => ⟨h.endCode, h.endIdx⟩
    inCount := fun hc => by simp [hc] at hst
    inRecord := fun _ => ⟨h.pidxPos, h.pidxLe, h.announced, h.countFirst⟩
    inPayload := hpay
    inDrain := hdrain
    reported := hrec
    reportedDrain := hrecDrain
    allReported := fun he => absurd he hne
    truncatedEarly := fun he => absurd he hne
    endLast := fun he => absurd he hne }

/-- R35 while a length is read. -/
theorem Inv.of_len (h : Running s) (hb : BufferOk s) (hst : s.st = .sLen)
    (hrec : recordIndices s.events = List.range' 1 (s.pidx.toNat - 1)) : Inv s :=
  .of_running h hb (.inl hst) (by simp [hst]) (by simp [hst]) (fun _ => hrec) (by simp [hst])

/-- R35 while a payload is buffered. -/
theorem Inv.of_payload (h : Running s) (hb : BufferOk s) (hst : s.st = .sPayload)
    (hrec : recordIndices s.events = List.range' 1 (s.pidx.toNat - 1))
    (hpay : s.bcnt = 0#2 ∧ 1 ≤ s.dlen.toNat ∧ s.dlen.toNat ≤ s.params.maxPayload ∧
      s.rcvd.toNat < s.dlen.toNat ∧ BufferFilled s) : Inv s :=
  .of_running h hb (.inr (.inl hst)) (fun _ => hpay) (by simp [hst]) (fun _ => hrec) (by simp [hst])

/-- R35 while a record that is too large is drained. -/
theorem Inv.of_drain (h : Running s) (hb : BufferOk s) (hst : s.st = .sDrain)
    (hrec : recordIndices s.events = List.range' 1 s.pidx.toNat)
    (hdrain : s.bcnt = 0#2 ∧ s.params.maxPayload < s.dlen.toNat ∧ s.rcvd.toNat < s.dlen.toNat ∧
      s.pbuf = [] ∧ s.events.getLast? = some (.record s.pidx s.dlen .recordTooLarge 0#32 none)) : Inv s :=
  .of_running h hb (.inr (.inr hst)) (by simp [hst]) (fun _ => hdrain) (by simp [hst]) (fun _ => hrec)

/-- R35 after the run has ended: `OK` needs every record reported (item 8), and a truncated count needs
nothing reported before it (R152). -/
theorem Inv.endRun {c : EndCode} {idx : U32} (hc : s.calls = []) (hb : BufferOk s)
    (hends : reportedEnds s.events = [])
    (hcounts : announcedCounts s.events = [] ∨ announcedCounts s.events = [s.pcount])
    (hok : c = .ok → recordIndices s.events = List.range' 1 s.pcount.toNat)
    (htrunc : c = .truncatedStream → s.events = [] ∧ idx = 0#32) : Inv (endRun c idx s) where
  noCalls := hc
  buffer := hb
  ends := by simp [hends, reportedEnds]
  counts := by simpa [announcedCounts] using hcounts
  endStatus h := absurd rfl h
  inCount h := by simp at h
  inRecord h := by simp at h
  inPayload h := by simp at h
  inDrain h := by simp at h
  reported h := by simp at h
  reportedDrain h := by simp at h
  allReported _ h := by simp [hok h, recordIndices]
  truncatedEarly _ h := by
    obtain ⟨hev, hidx⟩ := htrunc h
    have hcode : c = .truncatedStream := h
    simp [hev, hidx, hcode]
  endLast _ := by simp

/-! ## The ends of a record -/

/-- The stream ends inside a record (R153). -/
theorem Running.inv_truncated (h : Running s) (hb : BufferOk s) :
    Inv (endRun .truncatedRecord s.pidx (quiet s)) :=
  .endRun h.noCalls hb h.noEnd (.inr h.announced) nofun nofun

/-- After a record is reported, `next_record()` gives a state of the invariant: the indices reached `PCOUNT`,
or the next record's index is still at most `PCOUNT`, without wrapping. -/
theorem Running.inv_toNextRecord (h : Running s) (hb : BufferOk s)
    (hrec : recordIndices s.events = List.range' 1 s.pidx.toNat) : Inv (toNextRecord s) := by
  rcases toNextRecord_cases s with ⟨heq, he⟩ | ⟨hne, he⟩ <;> rw [he]
  · exact .endRun h.noCalls hb h.noEnd (.inr h.announced) (fun _ => heq ▸ hrec) nofun
  · have hlt : s.pidx.toNat < s.pcount.toNat :=
      lt_of_le_of_ne h.pidxLe fun heq => hne (BitVec.eq_of_toNat_eq heq)
    have hsucc : (s.pidx + 1#32).toNat = s.pidx.toNat + 1 := by bv_omega
    have hrun : Running { s with pidx := s.pidx + 1#32, st := .sLen } :=
      { h with pidxPos := by simp only [hsucc]; omega, pidxLe := by simp only [hsucc]; omega }
    exact Inv.of_len hrun hb rfl (by simpa only [hsucc, Nat.add_sub_cancel] using hrec)

/-- A record that completes is reported and left behind. -/
theorem Running.inv_completeRecord {plen : U32} (h : Running s) (hb : BufferOk s)
    (hrec : recordIndices s.events = List.range' 1 (s.pidx.toNat - 1))
    (hc : completeRecord plen s = .next t) : Inv t := by
  obtain ⟨stat, hdr, rfl⟩ := completeRecord_reports hc
  exact (h.report _ _ _ _).inv_toNextRecord hb (h.indices_report _ _ _ _ hrec)

/-! ## One step in each phase -/

theorem Inv.execReadCount {sym : Symbol} (h : Inv s) (hx : execReadCount sym s = .next t) : Inv t := by
  obtain ⟨hst, hcases⟩ := execReadCount_cases hx
  obtain ⟨hpidx, hrcvd, hev⟩ := h.inCount hst
  obtain ⟨hcode, hidx⟩ := h.endStatus (by simp [hst])
  rcases hcases with ⟨-, rfl⟩ | ⟨b, -, -, rfl⟩ | ⟨b, -, -, hn, rfl⟩ | ⟨b, -, -, hn, rfl⟩
  · exact .endRun h.noCalls h.buffer (by simp [hev, reportedEnds]) (.inl (by simp [hev, announcedCounts]))
      nofun fun _ => ⟨hev, rfl⟩
  · exact .of_count h.noCalls h.buffer hst hev hcode hidx hpidx hrcvd
  · refine .endRun h.noCalls h.buffer ?_ (.inr ?_) (fun _ => ?_) nofun
    · simp [hev, reportedEnds]
    · simpa [hev, announcedCounts] using hn.symm
    · change recordIndices _ = List.range' 1 (countByte b s).pcount.toNat
      rw [hn]
      simp [hev, recordIndices]
  · have hpos : 1 ≤ (countByte b s).pcount.toNat := by bv_omega
    exact .of_len
      ⟨h.noCalls, by simp [hev, reportedEnds], by simp [hev, announcedCounts], by simp [hev], hcode, hidx,
        le_rfl, hpos⟩
      h.buffer rfl (by simp [hev, recordIndices])

theorem Inv.execReadLen {sym : Symbol} (h : Inv s) (hx : execReadLen sym s = .next t) : Inv t := by
  obtain ⟨hst, hcases⟩ := execReadLen_cases hx
  have hrun := h.running (.inl hst)
  have hrec := h.reported (.inl hst)
  rcases hcases with ⟨-, rfl⟩ | ⟨b, -, -, rfl⟩ | ⟨b, -, -, hd⟩
  · exact hrun.inv_truncated h.buffer
  · exact .of_len hrun.congr h.buffer hst hrec
  · have hdone : Running (lengthDone b s) := hrun.congr
    rcases dispatchLength_cases (lengthDone b s).dlen (lengthDone b s) with
      ⟨hm, he⟩ | ⟨-, he⟩ | ⟨hm, h0, he⟩ <;> rw [he] at hd <;> cases hd
    · exact .of_drain (hdone.report _ _ _ _).congr (.of_empty rfl) rfl
        (hdone.indices_report _ _ _ _ hrec) ⟨rfl, hm, Nat.zero_lt_of_lt hm, rfl, by simp⟩
    · exact (hdone.report _ _ _ _).inv_toNextRecord (.of_empty rfl) (hdone.indices_report _ _ _ _ hrec)
    · have hpos : 0 < (lengthDone b s).dlen.toNat := by bv_omega
      exact .of_payload hdone.congr (.of_empty rfl) rfl hrec ⟨rfl, hpos, hm, hpos, rfl⟩

theorem Inv.execReadPayload {sym : Symbol} (h : Inv s) (hx : execReadPayload sym s = .next t) : Inv t := by
  obtain ⟨hst, hcases⟩ := execReadPayload_cases hx
  have hrun := h.running (.inr (.inl hst))
  have hrec := h.reported (.inr hst)
  obtain ⟨hbcnt, hpos, hmax, hlt, hfill⟩ := h.inPayload hst
  rcases hcases with ⟨-, rfl⟩ | ⟨b, -, hm, hd, rfl⟩ | ⟨b, -, hm, hd, hc⟩
  · exact hrun.inv_truncated h.buffer
  · have hsucc : (s.rcvd + 1#32).toNat = s.rcvd.toNat + 1 := by bv_omega
    have hlt' : (s.rcvd + 1#32).toNat < s.dlen.toNat := by bv_omega
    exact .of_payload hrun.congr (h.buffer.payloadByte b hm) hst hrec
      ⟨hbcnt, hpos, hmax, hlt', hfill.payloadByte b hsucc⟩
  · exact (hrun.congr (t := payloadByte b s)).inv_completeRecord (h.buffer.payloadByte b hm) hrec hc

theorem Inv.execReadDrain {sym : Symbol} (h : Inv s) (hx : execReadDrain sym s = .next t) : Inv t := by
  obtain ⟨hst, hcases⟩ := execReadDrain_cases hx
  have hrun := h.running (.inr (.inr hst))
  have hrec := h.reportedDrain hst
  obtain ⟨hbcnt, hmax, hlt, hbuf, hlast⟩ := h.inDrain hst
  rcases hcases with ⟨-, rfl⟩ | ⟨b, -, hd, rfl⟩ | ⟨b, -, hd, rfl⟩
  · exact hrun.inv_truncated h.buffer
  · have hlt' : (s.rcvd + 1#32).toNat < s.dlen.toNat := by bv_omega
    exact .of_drain hrun.congr h.buffer hst hrec ⟨hbcnt, hmax, hlt', hbuf, hlast⟩
  · exact (hrun.congr (t := drainByte b s)).inv_toNextRecord h.buffer hrec

/-- The invariant does not speak of the strobes. -/
theorem Inv.quiet (h : Inv s) : Inv (quiet s) := { h with }

/-- Settles O42, phase by phase. -/
theorem stepKeepsInvariant : Obligations.StepKeepsInvariant := by
  intro s t h hstep
  rcases step_cases h.noCalls hstep with ⟨-, hx⟩ | ⟨-, hx⟩ | ⟨-, hx⟩ | ⟨-, hx⟩ | ⟨-, rfl⟩
  · exact h.execReadCount hx
  · exact h.execReadLen hx
  · exact h.execReadPayload hx
  · exact h.execReadDrain hx
  · exact h.quiet

/-- Settles O41: a block that has just been reset is in the first phase with nothing reported. -/
theorem invariantAtStart : Obligations.InvariantAtStart := by
  have hinv (p : Params) (bytes : List Byte) : Inv (startOn p bytes) :=
    .of_count rfl (.of_empty rfl) rfl rfl rfl rfl rfl rfl
  exact ⟨hinv .thisHardware [], fun p bytes => ⟨hinv p bytes, rfl, rfl⟩⟩

end Sys2Proof.Machine
end

section
/-!
How far a step moves the cursor (10_state.md R20), and where a payload byte is not stored (10_state.md R33).
-/

namespace Sys2Proof.Machine

variable {s t : State}

/-! ## The cursor (10_state.md R20, 20_memory.md R44) -/

/-- A record that completes consumes nothing more. -/
theorem completeRecord_cur {plen : U32} (h : completeRecord plen s = .next t) : t.cur = s.cur := by
  obtain ⟨stat, hdr, rfl⟩ := completeRecord_reports h
  simp

/-- Nor does a length that is dispatched. -/
theorem dispatchLength_cur {d : U32} (h : dispatchLength d s = .next t) : t.cur = s.cur := by
  rcases dispatchLength_cases d s with ⟨-, he⟩ | ⟨-, he⟩ | ⟨-, -, he⟩ <;> rw [he] at h <;> cases h <;> simp

/-- Each of the four operations that take a symbol consumes that symbol and nothing else. -/
theorem execReadCount_cur {sym : Symbol} (h : execReadCount sym s = .next t) :
    t.cur = (beginStep sym s).cur := by
  obtain ⟨-, ⟨rfl, rfl⟩ | ⟨b, rfl, -, rfl⟩ | ⟨b, rfl, -, -, rfl⟩ | ⟨b, rfl, -, -, rfl⟩⟩ :=
    execReadCount_cases h <;> rfl

theorem execReadLen_cur {sym : Symbol} (h : execReadLen sym s = .next t) :
    t.cur = (beginStep sym s).cur := by
  obtain ⟨-, ⟨rfl, rfl⟩ | ⟨b, rfl, -, rfl⟩ | ⟨b, rfl, -, hd⟩⟩ := execReadLen_cases h
  · rfl
  · rfl
  · exact (dispatchLength_cur hd).trans (lengthDone_cur s b)

theorem execReadPayload_cur {sym : Symbol} (h : execReadPayload sym s = .next t) :
    t.cur = (beginStep sym s).cur := by
  obtain ⟨-, ⟨rfl, rfl⟩ | ⟨b, rfl, -, -, rfl⟩ | ⟨b, rfl, -, -, hc⟩⟩ := execReadPayload_cases h
  · rfl
  · rfl
  · exact (completeRecord_cur hc).trans (payloadByte_cur s b)

theorem execReadDrain_cur {sym : Symbol} (h : execReadDrain sym s = .next t) :
    t.cur = (beginStep sym s).cur := by
  obtain ⟨-, ⟨rfl, rfl⟩ | ⟨b, rfl, -, rfl⟩ | ⟨b, rfl, -, rfl⟩⟩ := execReadDrain_cases h
  · rfl
  · rfl
  · exact toNextRecord_cur _

/-- The cursor after the symbol at the cursor is taken: one further exactly when that symbol is a byte. -/
theorem beginStep_nextSymbol_cur (s : State) :
    (beginStep (nextSymbol s) s).cur = if s.cur < s.stream.length then s.cur + 1 else s.cur := by
  split
  · rename_i hlt
    rw [nextSymbol_byte hlt]
    rfl
  · rename_i hge
    rw [nextSymbol_eos (Nat.le_of_not_lt hge)]
    rfl

/-- Settles O35: in every phase but `S_END` the step takes the symbol at the cursor. -/
theorem stepMovesCursorByOneByte : Obligations.StepMovesCursorByOneByte := by
  intro s t hcalls hstep
  have taken (hst : s.st ≠ .sEnd) (hcur : t.cur = (beginStep (nextSymbol s) s).cur) :
      t.cur = if s.st ≠ .sEnd ∧ s.cur < s.stream.length then s.cur + 1 else s.cur := by
    rw [hcur, beginStep_nextSymbol_cur]
    simp only [ne_eq, hst, not_false_eq_true, true_and]
  rcases step_cases hcalls hstep with ⟨hst, hx⟩ | ⟨hst, hx⟩ | ⟨hst, hx⟩ | ⟨hst, hx⟩ | ⟨hst, rfl⟩
  · exact taken (by simp [hst]) (execReadCount_cur hx)
  · exact taken (by simp [hst]) (execReadLen_cur hx)
  · exact taken (by simp [hst]) (execReadPayload_cur hx)
  · exact taken (by simp [hst]) (execReadDrain_cur hx)
  · simp [hst]

/-! ## The capacity (10_state.md R33) -/

/-- A payload byte at an offset that the buffer does not have is not stored: the operation stops. -/
theorem execReadPayload_overflow (b : Byte) (hst : s.st = .sPayload)
    (hm : s.params.maxPayload ≤ s.rcvd.toNat) : execReadPayload (.byte b) s = .fault .bufferOverflow := by
  have hnone : memWrite s.rcvd.toNat b (beginStep (.byte b) s) = none := if_neg (by simpa using hm)
  rw [execReadPayload, if_neg (by simp [hst])]
  simp only [hnone]

/-- A payload byte below the capacity is stored and counted, and the last one completes the record. -/
theorem execReadPayload_stores (b : Byte) (hst : s.st = .sPayload)
    (hm : s.rcvd.toNat < s.params.maxPayload) :
    execReadPayload (.byte b) s =
      if s.rcvd + 1#32 = s.dlen then completeRecord s.dlen (payloadByte b s) else .next (payloadByte b s) := by
  have hsome := (memWrite_eq_some_iff s.rcvd.toNat b (beginStep (.byte b) s) _).mpr ⟨by simpa using hm, rfl⟩
  rw [execReadPayload, if_neg (by simp [hst])]
  simp only [hsome]
  rfl

/-- Completing a record stores nothing, so it never stops at the capacity. -/
theorem completeRecord_ne_overflow (plen : U32) (s : State) :
    completeRecord plen s ≠ .fault .bufferOverflow := by
  unfold completeRecord
  split
  · simp
  · split <;> simp

/-- Settles O9: the stop at the capacity is that of the store, and nothing after the store raises it. -/
theorem payloadStopsAtCapacity : Obligations.PayloadStopsAtCapacity := by
  intro s b hst
  refine ⟨execReadPayload_overflow b hst, fun hfault => ?_⟩
  by_contra hm
  change execReadPayload (.byte b) s = _ at hfault
  rw [execReadPayload_stores b hst (Nat.lt_of_not_le hm)] at hfault
  split at hfault
  · exact completeRecord_ne_overflow _ _ hfault
  · cases hfault

end Sys2Proof.Machine
end

section
/-!
Which operation writes which register (10_state.md R16): one lemma for each register, over the cases of
`Answers`.
-/

namespace Sys2Proof.Machine

variable {i : Instr} {s s0 t : State}

/-! ## What precedes a part of a step -/

/-- The registers that no byte of a declared length and no payload byte writes are the same in `s0` as in
`s`. -/
structure SameRun (s s0 : State) : Prop where
  pcount : s0.pcount = s.pcount
  pidx : s0.pidx = s.pidx
  res : s0.res = s.res
  endCode : s0.endCode = s.endCode
  endIdx : s0.endIdx = s.endIdx
  events : s0.events = s.events

theorem DispatchedAt.sameRun {d : U32} (h0 : DispatchedAt d i s s0) : SameRun s s0 := by
  cases h0 <;> exact ⟨rfl, rfl, rfl, rfl, rfl, rfl⟩

theorem CompletedAt.sameRun {plen : U32} (h0 : CompletedAt plen i s s0) : SameRun s s0 := by
  cases h0 with
  | empty h0 => exact h0.sameRun
  | complete | lastPayloadByte => exact ⟨rfl, rfl, rfl, rfl, rfl, rfl⟩

theorem PassedAt.sameRun (h0 : PassedAt i s s0) : SameRun s s0 := by
  cases h0 <;> exact ⟨rfl, rfl, rfl, rfl, rfl, rfl⟩

/-- A length is dispatched in the state itself, or after the last byte of the length. -/
theorem DispatchedAt.same_or_length {d : U32} (h0 : DispatchedAt d i s s0) :
    s0 = s ∨ ∃ b, i = .readLen (.byte b) := by
  cases h0 with
  | dispatch => exact .inl rfl
  | lastLengthByte b => exact .inr ⟨b, rfl⟩

theorem DispatchedAt.dispatches {d : U32} (h0 : DispatchedAt d i s s0) : DispatchesLength d i s := by
  cases h0 with
  | dispatch => exact .inl rfl
  | lastLengthByte b hst hb => exact .inr ⟨hb, b, rfl, by simp [hb]⟩

theorem DispatchedAt.maxPayload {d : U32} (h0 : DispatchedAt d i s s0) :
    s0.params.maxPayload = s.params.maxPayload := by
  cases h0 <;> rfl

theorem CompletedAt.completes {plen : U32} (h0 : CompletedAt plen i s s0) : CompletesRecord i s := by
  cases h0 with
  | complete => exact .inl ⟨plen, rfl⟩
  | empty h0 => exact .inr (.inl h0.dispatches)
  | lastPayloadByte b hst hm hd => exact .inr (.inr ⟨hd, b, rfl⟩)

theorem PassedAt.reaches (h0 : PassedAt i s s0) : ReachesNextRecord i s := by
  cases h0 with
  | nextRecord => exact .inl rfl
  | lastDrainByte b hst hd => exact .inr (.inr ⟨hd, b, rfl⟩)

/-! ## `next_record()` -/

/-- `next_record()` writes `PIDX` where another record follows (40_framer.md R89). -/
theorem toNextRecord_pidx_changes (h : (toNextRecord s).pidx ≠ s.pidx) :
    (toNextRecord s).st = .sLen ∧ s.pidx ≠ s.pcount ∧ (toNextRecord s).pidx = s.pidx + 1#32 := by
  rcases toNextRecord_cases s with ⟨-, he⟩ | ⟨hne, he⟩ <;> rw [he] at h ⊢
  · exact absurd rfl h
  · exact ⟨rfl, hne, rfl⟩

/-- `next_record()` writes the end status where the run ends (40_framer.md R89). -/
theorem toNextRecord_end_changes
    (h : (toNextRecord s).endCode ≠ s.endCode ∨ (toNextRecord s).endIdx ≠ s.endIdx) :
    (toNextRecord s).st = .sEnd ∧ (toNextRecord s).events.getLast? =
      some (.finish (toNextRecord s).endCode (toNextRecord s).endIdx) := by
  rcases toNextRecord_cases s with ⟨-, he⟩ | ⟨-, he⟩ <;> rw [he] at h ⊢
  · exact ⟨rfl, by simp⟩
  · simp at h

/-- `next_record()` drops no event. -/
theorem toNextRecord_events_append (s : State) : ∃ es, (toNextRecord s).events = s.events ++ es := by
  rcases toNextRecord_cases s with ⟨-, he⟩ | ⟨-, he⟩ <;> rw [he]
  · exact ⟨_, endRun_events s _ _⟩
  · exact ⟨[], by simp⟩

/-! ## One register each -/

section Writers

variable (ha : Answers i s t) (hopen : ∀ bs, i ≠ .openSource (some bs))
include ha hopen

/-- `PCOUNT` is `READ_COUNT`'s (40_framer.md R81). -/
theorem Answers.pcount_changes (h : t.pcount ≠ s.pcount) : ∃ b, i = .readCount (.byte b) := by
  cases ha with
  | opens bs => exact absurd rfl (hopen bs)
  | countByte b | countZero b | countDone b => exact ⟨b, rfl⟩
  | tooLarge h0 | startsPayload h0 => exact absurd h0.sameRun.pcount h
  | completes h0 hc =>
    obtain ⟨stat, hdr, rfl⟩ := completeRecord_reports hc
    simp [h0.sameRun.pcount] at h
  | passes h0 => simp [h0.sameRun.pcount] at h
  | computes | countEos | recordEos | lengthByte | payloadByte | drainByte => exact absurd rfl h

/-- `DLEN` is `READ_RECORD.LEN`'s (40_framer.md R83). -/
theorem Answers.dlen_changes (h : t.dlen ≠ s.dlen) : ∃ b, i = .readLen (.byte b) := by
  cases ha with
  | opens bs => exact absurd rfl (hopen bs)
  | lengthByte b => exact ⟨b, rfl⟩
  | tooLarge h0 | startsPayload h0 => exact h0.same_or_length.resolve_left fun he => h (he ▸ rfl)
  | completes h0 hc =>
    obtain ⟨stat, hdr, rfl⟩ := completeRecord_reports hc
    cases h0 with
    | empty h0 => exact h0.same_or_length.resolve_left fun he => h (by simp [he])
    | complete | lastPayloadByte => simp at h
  | passes h0 => cases h0 <;> simp at h
  | computes | countEos | countByte | countZero | countDone | recordEos | payloadByte | drainByte =>
    exact absurd rfl h

/-- `BCNT` is that of the two count fields (40_framer.md R81, R83). -/
theorem Answers.bcnt_changes (h : t.bcnt ≠ s.bcnt) :
    (∃ b, i = .readCount (.byte b)) ∨ ∃ b, i = .readLen (.byte b) := by
  cases ha with
  | opens bs => exact absurd rfl (hopen bs)
  | countByte b | countZero b | countDone b => exact .inl ⟨b, rfl⟩
  | lengthByte b => exact .inr ⟨b, rfl⟩
  | tooLarge h0 | startsPayload h0 => exact .inr (h0.same_or_length.resolve_left fun he => h (he ▸ rfl))
  | completes h0 hc =>
    obtain ⟨stat, hdr, rfl⟩ := completeRecord_reports hc
    cases h0 with
    | empty h0 => exact .inr (h0.same_or_length.resolve_left fun he => h (by simp [he]))
    | complete | lastPayloadByte => simp at h
  | passes h0 => cases h0 <;> simp at h
  | computes | countEos | recordEos | payloadByte | drainByte => exact absurd rfl h

/-- `RCVD` is that of the three byte phases of `READ_RECORD` (40_framer.md R83, R85, R86). -/
theorem Answers.rcvd_changes (h : t.rcvd ≠ s.rcvd) :
    (∃ b, i = .readLen (.byte b)) ∨ (∃ b, i = .readPayload (.byte b)) ∨ ∃ b, i = .readDrain (.byte b) := by
  cases ha with
  | opens bs => exact absurd rfl (hopen bs)
  | payloadByte b => exact .inr (.inl ⟨b, rfl⟩)
  | drainByte b => exact .inr (.inr ⟨b, rfl⟩)
  | tooLarge h0 | startsPayload h0 => exact .inl (h0.same_or_length.resolve_left fun he => h (he ▸ rfl))
  | completes h0 hc =>
    obtain ⟨stat, hdr, rfl⟩ := completeRecord_reports hc
    cases h0 with
    | complete => simp at h
    | empty h0 => exact .inl (h0.same_or_length.resolve_left fun he => h (by simp [he]))
    | lastPayloadByte b => exact .inr (.inl ⟨b, rfl⟩)
  | passes h0 =>
    cases h0 with
    | nextRecord => simp at h
    | lastDrainByte b => exact .inr (.inr ⟨b, rfl⟩)
  | computes | countEos | countByte | countZero | countDone | recordEos | lengthByte => exact absurd rfl h

/-- `PIDX` starts at 1 on the last byte of the count and is advanced by `next_record()` (10_state.md R13). -/
theorem Answers.pidx_changes (h : t.pidx ≠ s.pidx) :
    t.st = .sLen ∧ ((LastCountByte i s ∧ t.pidx = 1#32) ∨
      (ReachesNextRecord i s ∧ s.pidx ≠ s.pcount ∧ t.pidx = s.pidx + 1#32)) := by
  cases ha with
  | opens bs => exact absurd rfl (hopen bs)
  | countDone b hst hb => exact ⟨rfl, .inl ⟨⟨hb, b, rfl⟩, rfl⟩⟩
  | tooLarge h0 | startsPayload h0 => exact absurd h0.sameRun.pidx h
  | completes h0 hc =>
    obtain ⟨stat, hdr, rfl⟩ := completeRecord_reports hc
    have hs := h0.sameRun
    rw [← hs.pidx, ← hs.pcount] at *
    obtain ⟨hst, hne, hp⟩ := toNextRecord_pidx_changes h
    exact ⟨hst, .inr ⟨.inr (.inl h0.completes), hne, hp⟩⟩
  | passes h0 =>
    have hs := h0.sameRun
    rw [← hs.pidx, ← hs.pcount] at *
    obtain ⟨hst, hne, hp⟩ := toNextRecord_pidx_changes h
    exact ⟨hst, .inr ⟨h0.reaches, hne, hp⟩⟩
  | computes | countEos | countByte | countZero | recordEos | lengthByte | payloadByte | drainByte =>
    exact absurd rfl h

/-- The result registers change with a record event (10_state.md R28, R30). -/
theorem Answers.res_changes (h : t.res ≠ s.res) :
    ReportsRecord i s ∧
      ∃ idx dlen stat plen hdr, .record idx dlen stat plen hdr ∈ t.events.drop s.events.length := by
  cases ha with
  | opens bs => exact absurd rfl (hopen bs)
  | @tooLarge d _ _ s0 h0 hm =>
    rw [h0.maxPayload] at hm
    refine ⟨.inr ⟨d, hm, h0.dispatches⟩, s0.pidx, d, .recordTooLarge, 0#32, none, ?_⟩
    simp [h0.sameRun.events]
  | startsPayload h0 => exact absurd h0.sameRun.res h
  | @completes plen _ _ s0 _ h0 hc =>
    obtain ⟨stat, hdr, rfl⟩ := completeRecord_reports hc
    obtain ⟨es, he⟩ := toNextRecord_events_append (report s0.dlen stat plen hdr s0)
    refine ⟨.inl h0.completes, s0.pidx, s0.dlen, stat, plen, hdr, ?_⟩
    simp [he, h0.sameRun.events]
  | passes h0 => simp [h0.sameRun.res] at h
  | computes | countEos | countByte | countZero | countDone | recordEos | lengthByte | payloadByte
      | drainByte => exact absurd rfl h

/-- The end status registers change where the run ends, with the end event (10_state.md R24, R30). -/
theorem Answers.end_changes (h : t.endCode ≠ s.endCode ∨ t.endIdx ≠ s.endIdx) :
    (MeetsEndOfStream i ∨ LastCountByte i s ∨ ReachesNextRecord i s) ∧
      t.st = .sEnd ∧ t.events.getLast? = some (.finish t.endCode t.endIdx) := by
  cases ha with
  | opens bs => exact absurd rfl (hopen bs)
  | countEos => exact ⟨.inl (.inl rfl), rfl, by simp⟩
  | countZero b hst hb => exact ⟨.inr (.inl ⟨hb, b, rfl⟩), rfl, by simp⟩
  | recordEos hi => exact ⟨.inl (.inr (hi.imp And.right (.imp And.right And.right))), rfl, by simp⟩
  | tooLarge h0 | startsPayload h0 => simp [h0.sameRun.endCode, h0.sameRun.endIdx] at h
  | completes h0 hc =>
    obtain ⟨stat, hdr, rfl⟩ := completeRecord_reports hc
    rw [← h0.sameRun.endCode, ← h0.sameRun.endIdx] at h
    exact ⟨.inr (.inr (.inr (.inl h0.completes))), toNextRecord_end_changes h⟩
  | passes h0 =>
    rw [← h0.sameRun.endCode, ← h0.sameRun.endIdx] at h
    exact ⟨.inr (.inr h0.reaches), toNextRecord_end_changes h⟩
  | computes | countByte | countDone | lengthByte | payloadByte | drainByte => simp at h

/-- `ST` changes where a field or a record is complete, or the stream ends (10_state.md R21). -/
theorem Answers.st_changes (h : t.st ≠ s.st) :
    MeetsEndOfStream i ∨ LastCountByte i s ∨ (∃ d, DispatchesLength d i s) ∨ ReachesNextRecord i s := by
  cases ha with
  | opens bs => exact absurd rfl (hopen bs)
  | countEos => exact .inl (.inl rfl)
  | countZero b hst hb | countDone b hst hb => exact .inr (.inl ⟨hb, b, rfl⟩)
  | recordEos hi => exact .inl (.inr (hi.imp And.right (.imp And.right And.right)))
  | tooLarge h0 | startsPayload h0 => exact .inr (.inr (.inl ⟨_, h0.dispatches⟩))
  | completes h0 => exact .inr (.inr (.inr (.inr (.inl h0.completes))))
  | passes h0 => exact .inr (.inr (.inr h0.reaches))
  | computes | countByte | lengthByte | payloadByte | drainByte => exact absurd rfl h

end Writers

/-- Settles O38, register by register. -/
theorem registersHaveTheirWriters : Obligations.RegistersHaveTheirWriters := by
  intro s t i hexec hopen
  have ha := answers_of_exec hexec
  exact ⟨ha.pcount_changes hopen, ha.dlen_changes hopen, ha.bcnt_changes hopen, ha.rcvd_changes hopen,
    ha.pidx_changes hopen, ha.res_changes hopen, ha.end_changes hopen, ha.st_changes hopen⟩

end Sys2Proof.Machine
end

section
/-!
What an instruction does to the memories of the block (20_memory.md): the input and the build parameters are not
written (R53), the payload buffer is written at the fill level (R45, R46), and events are only appended (R51).
-/

namespace Sys2Proof.Machine

variable {i : Instr} {s s0 t : State}

/-! ## The input and the build parameters (20_memory.md R53, 10_state.md R25) -/

/-- What the source, the build and the caller supply is the same in `t` as in `s`. -/
structure SameInput (s t : State) : Prop where
  params : t.params = s.params
  calls : t.calls = s.calls
  stream : t.stream = s.stream

theorem SameInput.trans (h0 : SameInput s s0) (h : SameInput s0 t) : SameInput s t :=
  ⟨h.params.trans h0.params, h.calls.trans h0.calls, h.stream.trans h0.stream⟩

theorem SameInput.toNextRecord (s : State) : SameInput s (toNextRecord s) :=
  ⟨toNextRecord_params s, toNextRecord_calls s, toNextRecord_stream s⟩

theorem SameInput.completeRecord {plen : U32} (h : completeRecord plen s = .next t) : SameInput s t := by
  obtain ⟨stat, hdr, rfl⟩ := completeRecord_reports h
  exact .trans (s0 := report s.dlen stat plen hdr s) ⟨rfl, rfl, rfl⟩ (.toNextRecord _)

theorem DispatchedAt.sameInput {d : U32} (h0 : DispatchedAt d i s s0) : SameInput s s0 := by
  cases h0 <;> exact ⟨rfl, rfl, rfl⟩

theorem CompletedAt.sameInput {plen : U32} (h0 : CompletedAt plen i s s0) : SameInput s s0 := by
  cases h0 with
  | empty h0 => exact h0.sameInput
  | complete | lastPayloadByte => exact ⟨rfl, rfl, rfl⟩

theorem PassedAt.sameInput (h0 : PassedAt i s s0) : SameInput s s0 := by
  cases h0 <;> exact ⟨rfl, rfl, rfl⟩

/-- Only `open` presents another input. -/
theorem Answers.sameInput (ha : Answers i s t) (hopen : ∀ bs, i ≠ .openSource (some bs)) : SameInput s t := by
  cases ha with
  | opens bs => exact absurd rfl (hopen bs)
  | tooLarge h0 | startsPayload h0 => exact h0.sameInput.trans ⟨rfl, rfl, rfl⟩
  | completes h0 hc => exact h0.sameInput.trans (.completeRecord hc)
  | passes h0 => exact h0.sameInput.trans (.toNextRecord _)
  | computes | countEos | countByte | countZero | countDone | recordEos | lengthByte | payloadByte
      | drainByte => exact ⟨rfl, rfl, rfl⟩

/-- Settles O36: `open` presents another stream and keeps the rest, and no other instruction writes any of it. -/
theorem inputAndParametersAreNeverWritten : Obligations.InputAndParametersAreNeverWritten := by
  intro s t i hexec
  by_cases hopen : ∃ bs, i = .openSource (some bs)
  · obtain ⟨bs, rfl⟩ := hopen
    cases hexec
    exact ⟨rfl, rfl, fun h => absurd rfl (h bs)⟩
  · obtain ⟨hparams, hcalls, hstream⟩ := (answers_of_exec hexec).sameInput (not_exists.mp hopen)
    exact ⟨hparams, hcalls, fun _ => hstream⟩

/-! ## The payload buffer (20_memory.md R45, R46; 10_state.md R32) -/

/-- A record that completes leaves the buffer (10_state.md R32). -/
theorem completeRecord_pbuf {plen : U32} (h : completeRecord plen s = .next t) : t.pbuf = s.pbuf := by
  obtain ⟨stat, hdr, rfl⟩ := completeRecord_reports h
  simp

/-- So does a length that is dispatched. -/
theorem dispatchLength_pbuf {d : U32} (h : dispatchLength d s = .next t) : t.pbuf = s.pbuf := by
  rcases dispatchLength_cases d s with ⟨-, he⟩ | ⟨-, he⟩ | ⟨-, -, he⟩ <;> rw [he] at h <;> cases h <;> simp

/-- A payload byte is stored at the fill level (40_framer.md R85). -/
theorem execReadPayload_byte_pbuf {b : Byte} (h : execReadPayload (.byte b) s = .next t) :
    t.pbuf = s.pbuf.write s.rcvd.toNat b := by
  obtain ⟨-, ⟨he, -⟩ | ⟨_, hb, -, -, rfl⟩ | ⟨_, hb, -, -, hc⟩⟩ := execReadPayload_cases h
  · cases he
  · cases hb
    rfl
  · cases hb
    exact completeRecord_pbuf hc

/-- The last byte of a declared length empties the buffer, and no other byte of it does (40_framer.md R83). -/
theorem execReadLen_byte_pbuf {b : Byte} (h : execReadLen (.byte b) s = .next t) :
    t.pbuf = if s.bcnt = 3#2 then [] else s.pbuf := by
  obtain ⟨-, ⟨he, -⟩ | ⟨_, -, hb, rfl⟩ | ⟨b, -, hb, hd⟩⟩ := execReadLen_cases h
  · cases he
  · rw [if_neg hb]
    rfl
  · rw [if_pos hb]
    exact dispatchLength_pbuf hd

/-- `PBUF` is written by the two byte phases that read a declared length and a payload (20_memory.md R46). -/
theorem Answers.pbuf_changes (ha : Answers i s t) (hopen : ∀ bs, i ≠ .openSource (some bs))
    (h : t.pbuf ≠ s.pbuf) : (∃ b, i = .readPayload (.byte b)) ∨ ∃ b, i = .readLen (.byte b) := by
  cases ha with
  | opens bs => exact absurd rfl (hopen bs)
  | payloadByte b => exact .inl ⟨b, rfl⟩
  | tooLarge h0 | startsPayload h0 => exact .inr (h0.same_or_length.resolve_left fun he => h (he ▸ rfl))
  | completes h0 hc =>
    rw [completeRecord_pbuf hc] at h
    cases h0 with
    | complete => exact absurd rfl h
    | empty h0 => exact .inr (h0.same_or_length.resolve_left fun he => h (he ▸ rfl))
    | lastPayloadByte b => exact .inl ⟨b, rfl⟩
  | passes h0 => cases h0 <;> simp at h
  | computes | countEos | countByte | countZero | countDone | recordEos | lengthByte | drainByte =>
    exact absurd rfl h

/-- Settles O39: a payload byte is read back at the fill level, the last length byte leaves no offset readable,
and an instruction that takes neither leaves the buffer. -/
theorem bufferIsWrittenAtFillLevelOnly : Obligations.BufferIsWrittenAtFillLevelOnly := by
  intro s t i hexec hopen
  refine ⟨?_, ?_, fun hpayload hlen a => ?_⟩
  · rintro b rfl
    rw [execReadPayload_byte_pbuf hexec]
    exact ⟨Memory.read_write_same _ _ _, fun a ha => Memory.read_write_other _ _ ha⟩
  · rintro b rfl
    rw [execReadLen_byte_pbuf hexec]
    split <;> exact fun a => rfl
  · have hkept : t.pbuf = s.pbuf := by
      by_contra hne
      rcases (answers_of_exec hexec).pbuf_changes hopen hne with ⟨b, rfl⟩ | ⟨b, rfl⟩
      · exact hpayload b rfl
      · exact hlen b rfl
    rw [hkept]

/-- `MemRead` of the header is not defined where the buffer is not filled that far (20_memory.md R45). -/
theorem memRead_eq_none {n : Nat} (h : s.rcvd.toNat < n ∨ ∃ k, k < n ∧ s.pbuf.read k = none) :
    memRead 0 n s = none := by
  refine Option.eq_none_iff_forall_ne_some.mpr fun bs hbs => ?_
  obtain ⟨hr, hlen, hread⟩ := (memRead_eq_some_iff 0 n s bs).mp hbs
  rcases h with h | ⟨k, hk, hnone⟩
  · omega
  · have hsome := hread k hk
    rw [Nat.zero_add, hnone, List.getElem?_eq_getElem (hlen ▸ hk)] at hsome
    cases hsome

/-- A record of 20 bytes or more does not complete without its header bytes. -/
theorem completeRecord_unfilled {plen : U32} (h : 20 ≤ plen.toNat) (hnone : memRead 0 20 s = none) :
    completeRecord plen s = .fault .bufferNotFilled := by
  rw [completeRecord, hdrLen, if_neg (Nat.not_lt.mpr h), hnone]

/-- Settles O13: the stop is that of the read of the header bytes. -/
theorem completeStopsOnUnfilledBuffer : Obligations.CompleteStopsOnUnfilledBuffer :=
  fun _ _ hlen hunfilled => completeRecord_unfilled hlen (memRead_eq_none hunfilled)

/-! ## The events (20_memory.md R51, 10_state.md R29) -/

/-- The events of `s` stand in `t`, and at most `n` follow them. -/
def AppendsAtMost (n : Nat) (s t : State) : Prop := ∃ es, t.events = s.events ++ es ∧ es.length ≤ n

theorem AppendsAtMost.of_eq (n : Nat) (h : t.events = s.events) : AppendsAtMost n s t :=
  ⟨[], by simpa using h, Nat.zero_le n⟩

theorem AppendsAtMost.trans {m n : Nat} (h0 : AppendsAtMost m s s0) (h : AppendsAtMost n s0 t) :
    AppendsAtMost (m + n) s t := by
  obtain ⟨es0, he0, hl0⟩ := h0
  obtain ⟨es, he, hl⟩ := h
  exact ⟨es0 ++ es, by rw [he, he0, List.append_assoc], by rw [List.length_append]; omega⟩

/-- `next_record()` emits the end event or nothing (40_framer.md R89). -/
theorem AppendsAtMost.toNextRecord (s : State) : AppendsAtMost 1 s (toNextRecord s) := by
  rcases toNextRecord_cases s with ⟨-, he⟩ | ⟨-, he⟩ <;> rw [he]
  · exact ⟨_, endRun_events s _ _, le_rfl⟩
  · exact .of_eq 1 rfl

theorem AppendsAtMost.report (d : U32) (x : RecStat) (n : U32) (hdr : Option IPv4Header) (s : State) :
    AppendsAtMost 1 s (report d x n hdr s) := ⟨_, report_events s d x n hdr, le_rfl⟩

/-- A record that completes emits its record event, and the end event when it is the last
(40_framer.md R87, R89). -/
theorem AppendsAtMost.completeRecord {plen : U32} (h : completeRecord plen s = .next t) :
    AppendsAtMost 2 s t := by
  obtain ⟨stat, hdr, rfl⟩ := completeRecord_reports h
  exact (AppendsAtMost.report _ _ _ _ s).trans (.toNextRecord _)

/-- The two events of one instruction are a record or the count, and the end of the run after it. -/
theorem Answers.appendsAtMost_two (ha : Answers i s t) (hopen : ∀ bs, i ≠ .openSource (some bs)) :
    AppendsAtMost 2 s t := by
  cases ha with
  | opens bs => exact absurd rfl (hopen bs)
  | countEos | recordEos => exact ⟨_, endRun_events (quiet s) _ _, by simp⟩
  | countZero b =>
    have hcount : AppendsAtMost 1 s (emit (.count 0#32) { Machine.countByte b s with bcnt := 0#2 }) :=
      ⟨_, emit_events _ _, le_rfl⟩
    exact hcount.trans ⟨_, endRun_events _ _ _, le_rfl⟩
  | countDone b => exact ⟨_, emit_events { Machine.countByte b s with bcnt := 0#2 } _, by simp⟩
  | @tooLarge d _ _ s0 h0 =>
    exact (AppendsAtMost.of_eq 1 h0.sameRun.events).trans (.report d .recordTooLarge 0#32 none s0)
  | startsPayload h0 => exact .of_eq 2 h0.sameRun.events
  | completes h0 hc => exact (AppendsAtMost.of_eq 0 h0.sameRun.events).trans (.completeRecord hc)
  | passes h0 => exact (AppendsAtMost.of_eq 1 h0.sameRun.events).trans (.toNextRecord _)
  | computes | countByte | lengthByte | payloadByte | drainByte => exact .of_eq 2 rfl

/-- Settles O40, case by case of `Answers`. -/
theorem eventsAreOnlyAppended : Obligations.EventsAreOnlyAppended :=
  fun _ _ _ hexec hopen => (answers_of_exec hexec).appendsAtMost_two hopen

/-! ## A count field (20_memory.md R41) -/

/-- One byte of a count field is taken into the register `reg`: it is in the lane that `BCNT` selects, and the
phase `ph` is left by the last byte only. -/
structure FieldByteTaken (ph : Phase) (reg : State → U32) (b : Byte) (s t : State) : Prop where
  params : t.params = s.params
  cur : t.cur = s.cur + 1
  bcnt : t.bcnt = s.bcnt + 1#2
  lane : reg t = setLane s.params.frameEndian s.bcnt.toNat b (reg s)
  phase : s.bcnt ≠ 3#2 → t.st = ph

/-- In the phase `ph` the operation `op` takes every byte into the register `reg`. -/
def TakesField (op : Symbol → Instr) (ph : Phase) (reg : State → U32) : Prop :=
  ∀ (s : State) (b : Byte), s.st = ph → ∃ t, exec (op (.byte b)) s = .next t ∧ FieldByteTaken ph reg b s t

/-- A dispatched length leaves the length field as it is (40_framer.md R84). -/
theorem dispatchLength_field {d : U32} (h : dispatchLength d s = .next t) :
    t.params = s.params ∧ t.bcnt = s.bcnt ∧ t.dlen = s.dlen := by
  rcases dispatchLength_cases d s with ⟨-, he⟩ | ⟨-, he⟩ | ⟨-, -, he⟩ <;> rw [he] at h <;> cases h <;> simp

/-- `READ_COUNT` answers a next state for every byte (40_framer.md R81). -/
theorem execReadCount_byte_answers (b : Byte) (hst : s.st = .sCount) :
    ∃ t, execReadCount (.byte b) s = .next t := by
  rw [execReadCount, if_neg (not_not.mpr hst)]
  dsimp only
  split
  · exact ⟨_, rfl⟩
  · split <;> exact ⟨_, rfl⟩

/-- `READ_RECORD.LEN` answers a next state for every byte (40_framer.md R83). -/
theorem execReadLen_byte_answers (b : Byte) (hst : s.st = .sLen) :
    ∃ t, execReadLen (.byte b) s = .next t := by
  rw [execReadLen, if_neg (not_not.mpr hst)]
  dsimp only
  split
  · exact ⟨_, rfl⟩
  · rcases dispatchLength_cases _ _ with ⟨-, he⟩ | ⟨-, he⟩ | ⟨-, -, he⟩ <;> exact ⟨_, he⟩

/-- `READ_COUNT` takes every byte of the count into `PCOUNT` (40_framer.md R81). -/
theorem readCount_takesField : TakesField .readCount .sCount State.pcount := by
  intro s b hst
  obtain ⟨t, ht⟩ := execReadCount_byte_answers b hst
  refine ⟨t, ht, ?_⟩
  obtain ⟨-, ⟨he, -⟩ | ⟨_, hsym, -, rfl⟩ | ⟨_, hsym, hb, -, rfl⟩ | ⟨_, hsym, hb, -, rfl⟩⟩ :=
    execReadCount_cases ht
  · cases he
  all_goals cases hsym
  · exact ⟨rfl, rfl, rfl, rfl, fun _ => hst⟩
  · exact ⟨rfl, rfl, by simp [hb], rfl, absurd hb⟩
  · exact ⟨rfl, rfl, by simp [hb], rfl, absurd hb⟩

/-- `READ_RECORD.LEN` takes every byte of a declared length into `DLEN` (40_framer.md R83). -/
theorem readLen_takesField : TakesField .readLen .sLen State.dlen := by
  intro s b hst
  obtain ⟨t, ht⟩ := execReadLen_byte_answers b hst
  refine ⟨t, ht, ?_⟩
  obtain ⟨-, ⟨he, -⟩ | ⟨_, hsym, -, rfl⟩ | ⟨_, hsym, hb, hd⟩⟩ := execReadLen_cases ht
  · cases he
  all_goals cases hsym
  · exact ⟨rfl, rfl, rfl, rfl, fun _ => hst⟩
  · obtain ⟨hparams, hbcnt, hdlen⟩ := dispatchLength_field hd
    exact ⟨hparams, dispatchLength_cur hd, by simp [hbcnt, hb], hdlen, absurd hb⟩

/-- Four bytes from `BCNT = 0` on leave `u32_of`, and `BCNT` is 0 again. -/
theorem TakesField.execAll_four {op : Symbol → Instr} {ph : Phase} {reg : State → U32}
    (h : TakesField op ph reg) (b0 b1 b2 b3 : Byte) (hst : s.st = ph) (hb : s.bcnt = 0#2) :
    ∃ t, execAll [op (.byte b0), op (.byte b1), op (.byte b2), op (.byte b3)] s = .next t ∧
      t.cur = s.cur + 4 ∧ t.bcnt = 0#2 ∧ reg t = u32Of s.params.frameEndian b0 b1 b2 b3 := by
  obtain ⟨t1, h1, hp1, hc1, hb1, hv1, hst1⟩ := h s b0 hst
  obtain ⟨t2, h2, hp2, hc2, hb2, hv2, hst2⟩ := h t1 b1 (hst1 (by simp [hb]))
  obtain ⟨t3, h3, hp3, hc3, hb3, hv3, hst3⟩ := h t2 b2 (hst2 (by simp [hb1, hb]))
  obtain ⟨t, h4, hp4, hc4, hb4, hv4, -⟩ := h t3 b3 (hst3 (by simp [hb2, hb1, hb]))
  refine ⟨t, by simp only [execAll, h1, h2, h3, h4], by omega, by simp [hb4, hb3, hb2, hb1, hb], ?_⟩
  rw [hv4, hv3, hv2, hv1, hp3, hp2, hp1, hb3, hb2, hb1, hb]
  exact setLane_all _ b0 b1 b2 b3 _

/-- The number that `FRAME_ENDIAN` gives to the four bytes of a count field in arrival order (20_memory.md R41). -/
def fieldValue (e : Endian) (b0 b1 b2 b3 : Byte) : Nat :=
  match e with
  | .le => b0.toNat + 256 * b1.toNat + 65536 * b2.toNat + 16777216 * b3.toNat
  | .be => 16777216 * b0.toNat + 65536 * b1.toNat + 256 * b2.toNat + b3.toNat

/-- `u32_of` has the value of the field (30_encoding.md R64). -/
theorem toNat_u32Of (e : Endian) (b0 b1 b2 b3 : Byte) :
    (u32Of e b0 b1 b2 b3).toNat = fieldValue e b0 b1 b2 b3 := by
  cases e with
  | le =>
    rw [u32Of, toNat_join4, fieldValue]
    omega
  | be => exact toNat_join4 b0 b1 b2 b3

/-- Settles O5: both operations take the four bytes into their lanes, and the lanes together are `u32_of`. -/
theorem countFieldValue : Obligations.CountFieldValue := by
  intro s b0 b1 b2 b3 hb
  refine ⟨fun hst => ?_, fun hst => ?_⟩
  · obtain ⟨t, ht, hcur, hbcnt, hval⟩ := readCount_takesField.execAll_four b0 b1 b2 b3 hst hb
    exact ⟨t, ht, hcur, hbcnt, (congrArg BitVec.toNat hval).trans (toNat_u32Of _ b0 b1 b2 b3)⟩
  · obtain ⟨t, ht, hcur, hbcnt, hval⟩ := readLen_takesField.execAll_four b0 b1 b2 b3 hst hb
    exact ⟨t, ht, hcur, hbcnt, (congrArg BitVec.toNat hval).trans (toNat_u32Of _ b0 b1 b2 b3)⟩

end Sys2Proof.Machine
end

section
/-!
The decoder against the encoder (30_encoding.md R62, R64, R76): the round trip on well-formed instructions, and the
decoder's range.
-/

namespace Sys2Proof.Machine

/-! ## Decoding what the encoder wrote (30_encoding.md R62, R64, R76) -/

/-- The word of a field decodes to the extraction of that field from the bytes of the word. -/
theorem decode_fieldWord (f : Field) {a : Nat} {bs : List Byte} (h : a + bs.length ≤ hdrLen) :
    decode (fieldWord f a bs) = .ok (fieldInstr f fun n => (fieldWord f a bs).bytes.getD n 0#8) := by
  have hlen : (fieldWord f a bs).bytes.length = hdrLen := by
    simp only [fieldWord, List.length_append, List.length_replicate]
    omega
  exact if_pos hlen

/-- The vector of the bytes of a vector is the vector (30_encoding.md R62). -/
@[simp] theorem hdrOfBytes_hdrBytes (h : Hdr) : hdrOfBytes (hdrBytes h) = h := by
  have hbyte : ∀ n, n < 20 → (hdrBytes h).getD n 0#8 = hdrByte h n := fun n hn => by
    simp [hdrBytes, hn]
  exact (hdrOf_congr hbyte).trans (hdrOf_hdrByte h)

/-- Twenty bytes decode to `DECODE` of their vector (30_encoding.md R62). -/
theorem decode_header {bs : List Byte} (h : bs.length = 20) :
    decode { sel := .header, bytes := bs } = .ok (.decodeHeader (hdrOfBytes bs)) := if_pos h

/-- Each name's value selects that name's row (42_protocol_lookup.md R121 to R132). -/
@[simp] theorem protoInstr_protoKey (n : ProtoName) : protoInstr (protoKey n) = nameInstr n := by
  cases n <;> rfl

/-- An unnamed value selects the default row (42_protocol_lookup.md R133). -/
theorem protoInstr_unnamed {p : Byte} (h : protoName p = none) : protoInstr p = .protoNone p := by
  rw [protoInstr, h]

/-- A protocol value decodes to its row. -/
@[simp] theorem decode_protoWord (p : Byte) : decode (protoWord p) = .ok (protoInstr p) := rfl

/-- A name's value decodes to that name's row. -/
theorem decode_protoWord_protoKey (n : ProtoName) : decode (protoWord (protoKey n)) = .ok (nameInstr n) := by
  rw [decode_protoWord, protoInstr_protoKey]

/-- The word of an `OP` row is read from its operand bytes. -/
@[simp] theorem decode_opWord (o : OpName) (bs : List Byte) : decode (opWord o bs) = opInstr o bs := rfl

/-- `FMT_HEX` reads its carrier bytes back (20_memory.md R42). -/
theorem opInstr_fmtHex_carrierOf {v : U16} {n : Nat} (h : fitsCarrier v n = true) :
    opInstr .fmtHex (carrierOf v n) = .ok (.fmtHex v n) := by
  simp only [opInstr, carrierValue_carrierOf h]

/-- `FMT_FIELD` reads its carrier bytes back (43_formatting.md R144). -/
theorem opInstr_fmtField_carrierOf {f : Field} {v : U16} {n : Nat} (hn : carrierBytes f = some n)
    (h : fitsCarrier v n = true) : opInstr (.fmtField f) (carrierOf v n) = .ok (.fmtField f v) := by
  simp only [opInstr, hn, carrierValue_carrierOf h, if_true]

/-- A `FMT_FIELD` is well-formed when its field has a carrier that its value fits (43_formatting.md R144). -/
theorem wf_fmtField_iff (f : Field) (v : U16) :
    (Instr.fmtField f v).wf = true ↔ ∃ n, carrierBytes f = some n ∧ fitsCarrier v n = true := by
  cases hn : carrierBytes f <;> simp [Instr.wf, hn]

/-- Settles O51: one case for each format of 30_encoding.md R76; only the carrier values and the default row need
the instruction to be well-formed. -/
theorem decodeInvertsEncode : Obligations.DecodeInvertsEncode := by
  intro i hwf
  cases i with
  | version | headerLength | typeOfService | totalLength | identification | flags | fragmentOffset
  | timeToLive | protocol | headerChecksum | sourceAddress | destinationAddress =>
    -- The offsets that the extraction reads evaluate to the bytes that the encoder placed there.
    exact decode_fieldWord _ (by simp [hdrLen])
  | decodeHeader h => simpa [encode] using decode_header (bs := hdrBytes h) (by simp [hdrBytes])
  | protoIcmp | protoIgmp | protoTcp | protoIgrp | protoUdp | protoGre | protoEsp | protoAh | protoSkip
  | protoEigrp | protoOspf | protoL2tp => exact decode_protoWord_protoKey _
  | protoNone p =>
    have hnone : protoName p = none := Option.isNone_iff_eq_none.mp hwf
    rw [encode, decode_protoWord, protoInstr_unnamed hnone]
  | readCount sym | readLen sym | readPayload sym | readDrain sym => exact decode_symbolWord _ sym
  | dispatch v | complete v | fmtDec v => simp [encode, opInstr, u32Bytes]
  | openSource source => cases source <;> rfl
  | fmtHex v n => exact opInstr_fmtHex_carrierOf hwf
  | fmtField f v =>
    obtain ⟨n, hn, hfits⟩ := (wf_fmtField_iff f v).mp hwf
    simpa [encode, hn] using opInstr_fmtField_carrierOf hn hfits
  | nextRecord | fmtAddr | fmtProto => rfl

/-! ## What the decoder gives is well-formed -/

/-- A phase selects a well-formed operation. -/
theorem phaseInstr_wf {ph : Phase} {sym : Symbol} {i : Instr} (h : phaseInstr ph sym = .ok i) :
    i.wf = true := by
  cases ph <;> cases h <;> rfl

/-- Every extraction is well-formed (30_encoding.md R68). -/
theorem fieldInstr_wf (f : Field) (b : Nat → Byte) : (fieldInstr f b).wf = true := by
  cases f <;> rfl

/-- The row of a protocol value is well-formed: the default row is given to unnamed values only. -/
theorem protoInstr_wf (p : Byte) : (protoInstr p).wf = true := by
  cases hp : protoName p with
  | none => simp [protoInstr_unnamed hp, Instr.wf, hp]
  | some n =>
    rw [protoInstr, hp]
    cases n <;> rfl

/-- An `OP` row is well-formed: `FMT_HEX` and `FMT_FIELD` take a value from as many bytes as carry it. -/
theorem opInstr_wf {o : OpName} {bs : List Byte} {i : Instr} (h : opInstr o bs = .ok i) : i.wf = true := by
  cases o with
  | fmtHex =>
    simp only [opInstr] at h
    split at h
    next v n hv =>
      cases h
      exact fitsCarrier_of_carrierValue hv
    next => cases h
  | fmtField f =>
    simp only [opInstr] at h
    split at h
    next => cases h
    next n hn =>
      split at h
      next v m hv =>
        split at h
        next hm =>
          cases h
          exact (wf_fmtField_iff f v).mpr ⟨n, hn, hm ▸ fitsCarrier_of_carrierValue hv⟩
        next => cases h
      next => cases h
  | openSource =>
    simp only [opInstr] at h
    split at h
    next => cases h
    next => split_ifs at h <;> cases h <;> rfl
  | dispatch | complete | nextRecord | fmtDec | fmtAddr | fmtProto =>
    simp only [opInstr] at h
    split at h <;> cases h
    rfl

/-- Settles O52, selection by selection. -/
theorem decoderGivesWellFormed : Obligations.DecoderGivesWellFormed := by
  rintro ⟨sel, bytes⟩ i h
  cases sel with
  | stream ph =>
    simp only [decode] at h
    split at h
    next => exact phaseInstr_wf h
    next => cases h
  | header =>
    simp only [decode] at h
    split_ifs at h
    cases h
    rfl
  | field f =>
    simp only [decode] at h
    split_ifs at h
    cases h
    exact fieldInstr_wf f _
  | proto8 =>
    simp only [decode] at h
    split at h <;> cases h
    exact protoInstr_wf _
  | op o => exact opInstr_wf h

/-- Settles O53: the decoder computes on each written word. -/
theorem writtenWordsDecode : Obligations.WrittenWordsDecode := ⟨rfl, rfl, rfl, rfl, rfl, rfl⟩

end Sys2Proof.Machine
end

section
/-!
The operand forms: the lanes of a count field (30_encoding.md R64), and the header fields as slices of the header
vector (30_encoding.md R62) and as arithmetic on the bytes (30_encoding.md R65, R66).
-/

namespace Sys2Proof.Machine

/-! ## The lanes of a count field (30_encoding.md R64) -/

/-- The lane written holds the byte. -/
theorem extractLsb'_setLane (e : Endian) {k : Nat} (b : Byte) (r : U32) (hk : k < 4) :
    (setLane e k b r).extractLsb' (laneShift e k) 8 = b := by
  apply BitVec.eq_of_getLsbD_eq
  intro i hi
  simp [getLsbD_setLane e b r _ hk, hi]

/-- The bits outside the lane written are unchanged. -/
theorem getLsbD_setLane_outside (e : Endian) {k i : Nat} (b : Byte) (r : U32) (hk : k < 4)
    (hi : i < laneShift e k ∨ laneShift e k + 8 ≤ i) : (setLane e k b r).getLsbD i = r.getLsbD i := by
  rw [getLsbD_setLane e b r i hk, if_neg (by omega)]

/-- Settles O4: the lane written, the bits outside it, and the four lanes together. -/
theorem countFieldLanes : Obligations.CountFieldLanes := by
  refine ⟨fun k b r hk => ⟨extractLsb'_setLane .le b r hk, extractLsb'_setLane .be b r hk,
    fun i hi => getLsbD_setLane_outside .le b r hk hi, fun i hi => ?_⟩,
    fun b0 b1 b2 b3 r => ⟨setLane_all .le b0 b1 b2 b3 r, setLane_all .be b0 b1 b2 b3 r⟩⟩
  have hlane : i < laneShift .be k ∨ laneShift .be k + 8 ≤ i := by
    simp only [laneShift]
    omega
  exact getLsbD_setLane_outside .be b r hk hlane

/-! ## The fields as slices of their bytes (30_encoding.md R66) -/

/-- The version is the high half of byte 0 (41_ipv4_fields.md R101). -/
theorem versionOf_eq_extractLsb' (b0 : Byte) : versionOf b0 = b0.extractLsb' 4 4 :=
  BitVec.setWidth_ushiftRight_eq_extractLsb

/-- The header length is the low half of byte 0 (41_ipv4_fields.md R102). -/
theorem headerLengthOf_eq_extractLsb' (b0 : Byte) : headerLengthOf b0 = b0.extractLsb' 0 4 := by
  rw [headerLengthOf, BitVec.setWidth_and, show (0x0F#8).setWidth 4 = BitVec.allOnes 4 by decide,
    BitVec.and_allOnes, BitVec.setWidth_eq_extractLsb' (by decide)]

/-- The flags are the high three bits of byte 6 (41_ipv4_fields.md R106). -/
theorem flagsOf_eq_extractLsb' (b6 : Byte) : flagsOf b6 = b6.extractLsb' 5 3 :=
  BitVec.setWidth_ushiftRight_eq_extractLsb

/-- The fragment offset is the low thirteen bits of bytes 6 and 7 (41_ipv4_fields.md R107). -/
theorem fragmentOffsetOf_eq_extractLsb' (b6 b7 : Byte) :
    fragmentOffsetOf b6 b7 = (be16 b6 b7).extractLsb' 0 13 := by
  have hmask : be16 (b6 &&& 0x1F#8) b7 = be16 b6 b7 &&& (0x1F#8 ++ BitVec.allOnes 8) := by
    rw [be16_eq_append, be16_eq_append, BitVec.and_append, BitVec.and_allOnes]
  rw [fragmentOffsetOf_eq, hmask, BitVec.setWidth_and,
    show (0x1F#8 ++ BitVec.allOnes 8).setWidth 13 = BitVec.allOnes 13 by decide, BitVec.and_allOnes,
    BitVec.setWidth_eq_extractLsb' (by decide)]

/-! ## The fields as slices of the header vector (30_encoding.md R62) -/

/-- A slice of a slice of the header vector is a slice of the vector. -/
theorem extractLsb'_extractLsb' (h : Hdr) (a n start len : Nat) (hlen : start + len ≤ n) :
    (h.extractLsb' a n).extractLsb' start len = h.extractLsb' (a + start) len := by
  apply BitVec.eq_of_getLsbD_eq
  intro i hi
  have hinside : start + i < n := by omega
  simp [hi, hinside, Nat.add_assoc]

/-- A slice of one byte of the header vector is a slice of the vector. -/
theorem extractLsb'_hdrByte (h : Hdr) (n start len : Nat) (hlen : start + len ≤ 8) :
    (hdrByte h n).extractLsb' start len = h.extractLsb' (152 - 8 * n + start) len :=
  extractLsb'_extractLsb' h _ 8 start len hlen

/-- A slice that ends where byte `n` begins, followed by byte `n`, is one slice. -/
theorem extractLsb'_append_hdrByte (h : Hdr) {n start : Nat} (len : Nat) (hstart : start + 8 * n = 152) :
    h.extractLsb' (start + 8) len ++ hdrByte h n = h.extractLsb' start (len + 8) := by
  obtain rfl : start = 152 - 8 * n := by omega
  exact BitVec.extractLsb'_append_extractLsb'_eq_extractLsb' rfl

/-- Two bytes of the header vector in payload order are the slice of both (30_encoding.md R65). -/
theorem be16_hdrByte (h : Hdr) {n start : Nat} (hstart : start + 8 * (n + 1) = 152) :
    be16 (hdrByte h n) (hdrByte h (n + 1)) = h.extractLsb' start 16 := by
  have hfirst : hdrByte h n = h.extractLsb' (start + 8) 8 := by
    rw [hdrByte, show 152 - 8 * n = start + 8 by omega]
  rw [be16_eq_append, hfirst]
  exact extractLsb'_append_hdrByte h 8 hstart

/-- Four bytes of the header vector in payload order are the slice of all four (30_encoding.md R67). -/
theorem addressOf_hdrByte (h : Hdr) {n start : Nat} (hstart : start + 8 * (n + 3) = 152) :
    addressOf (hdrByte h n) (hdrByte h (n + 1)) (hdrByte h (n + 2)) (hdrByte h (n + 3)) =
      h.extractLsb' start 32 := by
  have htwo : hdrByte h n ++ hdrByte h (n + 1) = h.extractLsb' (start + 8 + 8) 16 := by
    rw [← be16_eq_append, be16_hdrByte h (start := start + 8 + 8) (by omega)]
  have hthree : h.extractLsb' (start + 8 + 8) 16 ++ hdrByte h (n + 2) = h.extractLsb' (start + 8) 24 :=
    extractLsb'_append_hdrByte h 16 (by omega)
  rw [addressOf, htwo, hthree]
  exact extractLsb'_append_hdrByte h 24 hstart

/-- The header decoded from the bytes of a vector, as the slices that the layout gives (30_encoding.md R62). -/
theorem headerOf_hdrByte (h : Hdr) :
    headerOf (hdrByte h) =
      { version := h.extractLsb' 156 4
        headerLength := h.extractLsb' 152 4
        typeOfService := h.extractLsb' 144 8
        totalLength := h.extractLsb' 128 16
        identification := h.extractLsb' 112 16
        flags := h.extractLsb' 109 3
        fragmentOffset := h.extractLsb' 96 13
        timeToLive := h.extractLsb' 88 8
        protocol := h.extractLsb' 80 8
        protocolName := protoName (h.extractLsb' 80 8)
        headerChecksum := h.extractLsb' 64 16
        sourceAddress := h.extractLsb' 32 32
        destinationAddress := h.extractLsb' 0 32 } := by
  have hfrag : fragmentOffsetOf (hdrByte h 6) (hdrByte h 7) = h.extractLsb' 96 13 := by
    rw [fragmentOffsetOf_eq_extractLsb', be16_hdrByte h (start := 96) rfl]
    exact extractLsb'_extractLsb' h 96 16 0 13 (by decide)
  rw [headerOf, versionOf_eq_extractLsb', headerLengthOf_eq_extractLsb', flagsOf_eq_extractLsb', hfrag,
    extractLsb'_hdrByte h 0 4 4 (by decide), extractLsb'_hdrByte h 0 0 4 (by decide),
    extractLsb'_hdrByte h 6 5 3 (by decide), be16_hdrByte h (n := 2) (start := 128) rfl,
    be16_hdrByte h (n := 4) (start := 112) rfl, be16_hdrByte h (n := 10) (start := 64) rfl,
    addressOf_hdrByte h (n := 12) (start := 32) rfl, addressOf_hdrByte h (n := 16) (start := 0) rfl]
  rfl

/-- Settles O20: the vector holds the bytes, and each field of `DECODE` is its slice. -/
theorem decodeTakesSlices : Obligations.DecodeTakesSlices := by
  refine ⟨fun bs hlen => ⟨_, decode_header hlen, fun n hn => hdrByte_hdrOf _ hn⟩, fun s h => ?_⟩
  rw [← headerOf_hdrByte]
  rfl

/-! ## The fields as arithmetic on the bytes (30_encoding.md R65, R66) -/

/-- The version is the byte divided by 16 (41_ipv4_fields.md R101). -/
theorem versionOf_carried (b0 : Byte) : (versionOf b0).setWidth 8 = BitVec.ofNat 8 (b0.toNat / 16) := by
  have hfits : b0.toNat / 16 < 16 := by omega
  apply BitVec.eq_of_toNat_eq
  simp [versionOf_eq_extractLsb', Nat.shiftRight_eq_div_pow, Nat.mod_eq_of_lt hfits]

/-- The header length is the byte modulo 16 (41_ipv4_fields.md R102). -/
theorem headerLengthOf_carried (b0 : Byte) :
    (headerLengthOf b0).setWidth 8 = BitVec.ofNat 8 (b0.toNat % 16) := by
  apply BitVec.eq_of_toNat_eq
  simp [headerLengthOf_eq_extractLsb']

/-- The flags are the byte divided by 32 (41_ipv4_fields.md R106). -/
theorem flagsOf_carried (b6 : Byte) : (flagsOf b6).setWidth 8 = BitVec.ofNat 8 (b6.toNat / 32) := by
  have hfits : b6.toNat / 32 < 8 := by omega
  apply BitVec.eq_of_toNat_eq
  simp [flagsOf_eq_extractLsb', Nat.shiftRight_eq_div_pow, Nat.mod_eq_of_lt hfits]

/-- The fragment offset leaves the flags out (41_ipv4_fields.md R107). -/
theorem fragmentOffsetOf_carried (b6 b7 : Byte) :
    (fragmentOffsetOf b6 b7).setWidth 16 = BitVec.ofNat 16 (256 * (b6.toNat % 32) + b7.toNat) := by
  have hmod : (256 * b6.toNat + b7.toNat) % 8192 = 256 * (b6.toNat % 32) + b7.toNat := by omega
  apply BitVec.eq_of_toNat_eq
  simp [fragmentOffsetOf_eq_extractLsb', toNat_be16, hmod]

/-- Settles O17: each extraction gives its value to the caller. -/
theorem narrowFieldValues : Obligations.NarrowFieldValues := by
  intro s b0 b6 b7
  rw [← versionOf_carried, ← headerLengthOf_carried, ← flagsOf_carried, ← fragmentOffsetOf_carried]
  exact ⟨rfl, rfl, rfl, rfl⟩

/-- `be16` is the value in 16 bits (30_encoding.md R65). -/
theorem be16_eq_ofNat (h l : Byte) : be16 h l = BitVec.ofNat 16 (256 * h.toNat + l.toNat) := by
  rw [← toNat_be16, BitVec.ofNat_toNat, BitVec.setWidth_eq]

/-- Settles O18: the three extractions give `be16` to the caller. -/
theorem twoByteFieldValues : Obligations.TwoByteFieldValues := by
  intro s h l
  rw [← be16_eq_ofNat]
  exact ⟨rfl, rfl, rfl⟩

end Sys2Proof.Machine
end

section
/-!
The placing of a table word where the next step runs it (30_encoding.md R76, log entry 9).
-/

namespace Sys2Proof.Machine

/-- A table word of a row other than a count field does not depend on the byte order. -/
theorem tableWord_byteOrder (e e' : Endian) {nbits : Nat} (w : Nat) (hn : nbits ≠ 32) :
    tableWord e nbits w = tableWord e' nbits w := by
  simp only [tableWord, if_neg hn]

/-- What the decoder reads from the bits of a table row is read from the word of the row. -/
theorem decodeTableWord_eq_some_iff {nbits w : Nat} {i : Instr} :
    decodeTableWord nbits w = some i ↔
      ∃ ow, tableWord Params.thisHardware.frameEndian nbits w = some ow ∧ decode ow = .ok i := by
  simp only [decodeTableWord, Option.bind_eq_some_iff]
  refine exists_congr fun ow => and_congr_right fun _ => ?_
  cases decode ow <;> simp

/-- A caller's word that decodes is what the next step runs (log entry 8). -/
theorem step_call {w : OpWord} {i : Instr} (s : State) (h : decode w = .ok i) :
    step { s with calls := w :: s.calls } = exec i s := by
  rw [step, fetch_call rfl]
  exact runWord_of_decode s h

/-- Any word but a count field is placed as the caller's next operation. -/
theorem step_withFetchWord (s : State) {nbits w : Nat} {i : Instr} (hn : nbits ≠ 32)
    (h : decodeTableWord nbits w = some i) : step (s.withFetchWord nbits w) = exec i s := by
  obtain ⟨ow, hword, hdec⟩ := decodeTableWord_eq_some_iff.mp h
  have hplace : s.withFetchWord nbits w = { s with calls := ow :: s.calls } := by
    rw [tableWord_byteOrder _ s.params.frameEndian w hn] at hword
    rw [State.withFetchWord, placeTableWord, if_neg hn, hword]
  rw [hplace, step_call s hdec]

/-- A count field is read as `READ_COUNT` of its first byte in the stream. -/
theorem decodeTableWord_count (w : Nat) :
    decodeTableWord 32 w = some (.readCount (.byte (byteAt (BitVec.ofNat 32 w) 0))) := rfl

/-- A count field placed at reset is read from its first byte. -/
theorem step_placeCount_reset (w : Nat) :
    step (placeCount w .reset) =
      exec (.readCount (.byte (byteAt (BitVec.ofNat 32 w) 0))) (placeCount w .reset) := rfl

/-- Settles O54: the caller's operation comes first, and a count field stands at the cursor. -/
theorem placedWordIsRunNext : Obligations.PlacedWordIsRunNext := by
  intro s w i
  refine ⟨step_withFetchWord s (by decide), step_withFetchWord s (by decide), fun h => ?_⟩
  rw [decodeTableWord_count] at h
  cases h
  exact step_placeCount_reset w

end Sys2Proof.Machine
end

section
/-!
The operations of the framer as equations (40_framer.md R81 to R89): what each of them answers on a byte, on the
last byte of its field, and at the end of the stream.
-/

namespace Sys2Proof.Machine

variable {s : State}

/-! ## READ_COUNT (40_framer.md R81) -/

theorem execReadCount_eos (hst : s.st = .sCount) :
    execReadCount .eos s = .next (endRun .truncatedStream 0#32 (quiet s)) := if_neg (not_not.mpr hst)

theorem execReadCount_more (b : Byte) (hst : s.st = .sCount) (hb : s.bcnt ≠ 3#2) :
    execReadCount (.byte b) s = .next { countByte b s with bcnt := s.bcnt + 1#2 } :=
  (if_neg (not_not.mpr hst)).trans (if_pos hb)

theorem execReadCount_zero (b : Byte) (hst : s.st = .sCount) (hb : s.bcnt = 3#2)
    (hn : (countByte b s).pcount = 0#32) :
    execReadCount (.byte b) s =
      .next (endRun .ok 0#32 (emit (.count 0#32) { countByte b s with bcnt := 0#2 })) := by
  have hlast : execReadCount (.byte b) s = .next
      (endRun .ok 0#32 (emit (.count (countByte b s).pcount) { countByte b s with bcnt := 0#2 })) :=
    (if_neg (not_not.mpr hst)).trans ((if_neg (not_not.mpr hb)).trans (if_pos hn))
  exact hlast.trans (by rw [hn])

theorem execReadCount_done (b : Byte) (hst : s.st = .sCount) (hb : s.bcnt = 3#2)
    (hn : (countByte b s).pcount ≠ 0#32) :
    execReadCount (.byte b) s =
      .next { emit (.count (countByte b s).pcount) { countByte b s with bcnt := 0#2 } with
              pidx := 1#32, st := .sLen } :=
  (if_neg (not_not.mpr hst)).trans ((if_neg (not_not.mpr hb)).trans (if_neg hn))

/-- Settles O3: a byte goes to its lane, and the lane of the last one is lane 3. -/
theorem readCountStep : Obligations.ReadCountStep := by
  intro s hst
  refine ⟨fun b hb => execReadCount_more b hst hb, fun b n hb hn => ?_, execReadCount_eos hst⟩
  have hlane : (countByte b s).pcount = n := by simp [hb, hn]
  split
  · rename_i hzero
    refine (execReadCount_zero b hst hb (hlane.trans hzero)).trans (congrArg _ ?_)
    have hcount : countByte b s = { countByte b s with pcount := 0#32 } := by rw [← hzero, ← hlane]
    rw [hcount, endRun, emit, emit, List.append_assoc]
    rfl
  · rename_i hne
    subst hlane
    exact execReadCount_done b hst hb hne

/-! ## READ_RECORD.LEN and dispatch (40_framer.md R83, R84) -/

theorem execReadLen_eos (hst : s.st = .sLen) :
    execReadLen .eos s = .next (endRun .truncatedRecord s.pidx (quiet s)) := if_neg (not_not.mpr hst)

theorem execReadLen_more (b : Byte) (hst : s.st = .sLen) (hb : s.bcnt ≠ 3#2) :
    execReadLen (.byte b) s = .next { lengthByte b s with bcnt := s.bcnt + 1#2 } :=
  (if_neg (not_not.mpr hst)).trans (if_pos hb)

theorem execReadLen_last (b : Byte) (hst : s.st = .sLen) (hb : s.bcnt = 3#2) :
    execReadLen (.byte b) s = dispatchLength (lengthDone b s).dlen (lengthDone b s) :=
  (if_neg (not_not.mpr hst)).trans (if_neg (not_not.mpr hb))

/-- A length is dispatched to a next state, whatever it is. -/
theorem dispatchLength_answers (d : U32) (s : State) : ∃ t, dispatchLength d s = .next t := by
  rcases dispatchLength_cases d s with ⟨-, he⟩ | ⟨-, he⟩ | ⟨-, -, he⟩ <;> exact ⟨_, he⟩

/-- Settles O6: the lane of the last byte is lane 3, and what is dispatched is the completed length. -/
theorem readLenStep : Obligations.ReadLenStep := by
  intro s hst
  refine ⟨fun b hb => execReadLen_more b hst hb, ?_, execReadLen_eos hst⟩
  rintro b _ hb rfl
  have hlane : (lengthDone b s).dlen = setLane s.params.frameEndian 3 b s.dlen := by simp [hb]
  rw [← hlane]
  obtain ⟨t, ht⟩ := dispatchLength_answers (lengthDone b s).dlen (lengthDone b s)
  exact ⟨t, (execReadLen_last b hst hb).trans ht, ht⟩

/-- Settles O7: the three cases of a length, of which 0 completes a short record. -/
theorem dispatchStep : Obligations.DispatchStep := by
  intro s d
  refine ⟨dispatchLength_tooLarge s, ?_, fun h0 hmax => dispatchLength_payload s hmax h0⟩
  rintro rfl
  exact ⟨_, dispatchLength_zero s, completeRecord_short (plen := 0#32) s (by decide)⟩

/-! ## RUN.next_record and READ_RECORD.DRAIN (40_framer.md R86, R89) -/

/-- Settles O14: the two cases of `next_record()`. -/
theorem nextRecordAdvancesOrEnds : Obligations.NextRecordAdvancesOrEnds :=
  fun s => ⟨fun h => congrArg Host.Outcome.next (toNextRecord_more s h),
    fun h => congrArg Host.Outcome.next (toNextRecord_last s h)⟩

theorem execReadDrain_eos (hst : s.st = .sDrain) :
    execReadDrain .eos s = .next (endRun .truncatedRecord s.pidx (quiet s)) := if_neg (not_not.mpr hst)

theorem execReadDrain_more (b : Byte) (hst : s.st = .sDrain) (hd : s.rcvd + 1#32 ≠ s.dlen) :
    execReadDrain (.byte b) s = .next (drainByte b s) :=
  (if_neg (not_not.mpr hst)).trans (if_neg hd)

theorem execReadDrain_last (b : Byte) (hst : s.st = .sDrain) (hd : s.rcvd + 1#32 = s.dlen) :
    execReadDrain (.byte b) s = .next (toNextRecord (drainByte b s)) :=
  (if_neg (not_not.mpr hst)).trans (if_pos hd)

/-- After the last byte of a record that is passed over, the fill level is the declared length. -/
theorem drainByte_last (b : Byte) (hd : s.rcvd + 1#32 = s.dlen) :
    drainByte b s = { s with cur := s.cur + 1, strobe := {}, rcvd := s.dlen } := by
  rw [drainByte, hd]
  rfl

/-- Settles O10: the last byte goes on as `next_record()`, which reports nothing. -/
theorem drainStep : Obligations.DrainStep := by
  intro s hst
  refine ⟨fun b hd => execReadDrain_more b hst hd, fun b hd hp => ?_, fun b hd hp => ?_,
    execReadDrain_eos hst⟩
  · refine (execReadDrain_last b hst hd).trans ?_
    rw [toNextRecord_more (drainByte b s) hp, drainByte_last b hd]
  · refine (execReadDrain_last b hst hd).trans ?_
    rw [toNextRecord_last (drainByte b s) hp, drainByte_last b hd]
    rfl

/-! ## READ_RECORD.PAYLOAD and complete (40_framer.md R85, R87) -/

theorem execReadPayload_eos (hst : s.st = .sPayload) :
    execReadPayload .eos s = .next (endRun .truncatedRecord s.pidx (quiet s)) := if_neg (not_not.mpr hst)

/-- After the last byte of a payload, the fill level is the declared length. -/
theorem payloadByte_last (b : Byte) (hd : s.rcvd + 1#32 = s.dlen) :
    payloadByte b s =
      { s with cur := s.cur + 1, strobe := {}, rcvd := s.dlen, pbuf := s.pbuf.write s.rcvd.toNat b } := by
  rw [payloadByte, hd]
  rfl

/-- A record completes where it is short or its header bytes are stored (20_memory.md R45). -/
theorem completeRecord_answers {plen : U32} (h : 20 ≤ plen.toNat → ∃ bs, memRead 0 20 s = some bs) :
    ∃ t, completeRecord plen s = .next t := by
  by_cases hlen : plen.toNat < 20
  · exact ⟨_, completeRecord_short s hlen⟩
  · obtain ⟨bs, hbs⟩ := h (Nat.le_of_not_lt hlen)
    exact ⟨_, completeRecord_decoded (Nat.le_of_not_lt hlen) hbs⟩

/-- In a state of the invariant a payload byte is below the capacity, and counting it does not wrap. -/
theorem Inv.payload_room (h : Inv s) (hst : s.st = .sPayload) :
    s.rcvd.toNat < s.params.maxPayload ∧ (s.rcvd + 1#32).toNat = s.rcvd.toNat + 1 := by
  obtain ⟨-, -, hmax, hlt, -⟩ := h.inPayload hst
  exact ⟨by omega, by bv_omega⟩

/-- The last payload byte of a state of the invariant completes the record: the buffer is filled to the
declared length. -/
theorem Inv.lastPayloadByte_completes (h : Inv s) (hst : s.st = .sPayload) (b : Byte)
    (hd : s.rcvd + 1#32 = s.dlen) : ∃ t, completeRecord s.dlen (payloadByte b s) = .next t := by
  obtain ⟨-, -, -, -, hfill⟩ := h.inPayload hst
  have hfilled := hfill.payloadByte b (h.payload_room hst).2
  exact completeRecord_answers fun hlen => hfilled.memRead_isSome (by rwa [payloadByte_rcvd, hd])

/-- Settles O8: the store is within the capacity, and the record completes from a filled buffer. -/
theorem payloadStep : Obligations.PayloadStep := by
  intro s hinv hst
  obtain ⟨hroom, -⟩ := hinv.payload_room hst
  refine ⟨fun b hd => (execReadPayload_stores b hst hroom).trans (if_neg hd), fun b hd => ?_,
    execReadPayload_eos hst⟩
  obtain ⟨t, ht⟩ := hinv.lastPayloadByte_completes hst b hd
  refine ⟨t, (execReadPayload_stores b hst hroom).trans ((if_pos hd).trans ht), ?_⟩
  rw [← payloadByte_last b hd]
  exact ht

/-- Settles O12: `complete` is a report and `next_record()`; what it reports is what `DECODE` gives. -/
theorem completeStep : Obligations.CompleteStep := by
  intro s plen
  refine ⟨fun hshort => ⟨completeRecord_short s hshort, _, completeRecord_short s hshort⟩,
    fun bs hlong hrcvd hlen hread => ⟨_, rfl, ?_⟩⟩
  have hmem : memRead 0 20 s = some bs := by
    refine (memRead_eq_some_iff 0 20 s bs).mpr ⟨hrcvd, hlen, fun k hk => ?_⟩
    rw [Nat.zero_add, hread k hk, List.getD_eq_getElem?_getD, List.getElem?_eq_getElem (hlen ▸ hk),
      Option.getD_some]
  have hdecoded : headerOf (fun n => bs.getD n 0#8) = headerOf (hdrByte (hdrOfBytes bs)) :=
    headerOf_congr fun n hn => (hdrByte_hdrOf (fun n => bs.getD n 0#8) hn).symm
  have hcomplete := completeRecord_decoded hlong hmem
  rw [hdecoded] at hcomplete
  exact ⟨hcomplete, _, hcomplete⟩

/-- `next_record()` neither reads nor writes the buffer. -/
theorem toNextRecord_setPbuf (s : State) (m : Memory) :
    toNextRecord { s with pbuf := m } = { toNextRecord s with pbuf := m } := by
  rcases toNextRecord_cases s with ⟨hp, he⟩ | ⟨hp, he⟩ <;> rw [he]
  · exact toNextRecord_last _ hp
  · exact toNextRecord_more _ hp

/-- The header bytes read from two buffers that agree on them are the same. -/
theorem memRead_setPbuf {m : Memory} {bs : List Byte} {n : Nat} (h : ∀ a, a < n → s.pbuf.read a = m.read a)
    (hbs : memRead 0 n s = some bs) : memRead 0 n { s with pbuf := m } = some bs := by
  obtain ⟨hr, hlen, hread⟩ := (memRead_eq_some_iff 0 n s bs).mp hbs
  refine (memRead_eq_some_iff 0 n _ bs).mpr ⟨hr, hlen, fun k hk => ?_⟩
  rw [← hread k hk, Nat.zero_add, h k hk]

/-- Settles O22: `complete` reads bytes 0 to 19 of the buffer and goes on without it. -/
theorem laterBytesHaveNoEffect : Obligations.LaterBytesHaveNoEffect := by
  intro s m plen hagree t hexec
  obtain ⟨hshort, rfl⟩ | ⟨hlong, bs, hbs, rfl⟩ := completeRecord_cases hexec
  · exact (completeRecord_short _ hshort).trans
      (congrArg _ (toNextRecord_setPbuf (report s.dlen _ plen _ s) m))
  · exact (completeRecord_decoded hlong (memRead_setPbuf hagree hbs)).trans
      (congrArg _ (toNextRecord_setPbuf (report s.dlen _ plen _ s) m))

/-- Settles O15: `open` is reset with a stream presented, or the host's error. -/
theorem openPresentsStreamOrFails : Obligations.OpenPresentsStreamOrFails := fun _ _ => ⟨rfl, rfl⟩

end Sys2Proof.Machine
end

section
/-!
The step (40_framer.md R90, R91, R93): the operation it runs, and the next state it answers in every state of the
invariant.
-/

namespace Sys2Proof.Machine

variable {s : State}

/-- A symbol is run as the operation that the phase selects (40_framer.md R90). -/
theorem runFetched_fetchSymbol {sym : Symbol} {i : Instr} (hi : phaseInstr s.st sym = .ok i) :
    runFetched (fetchSymbol sym s) = exec i s := by
  have hst : s.st ≠ .sEnd := fun he => by
    rw [he] at hi
    cases hi
  rw [fetchSymbol_phase sym hst]
  exact runWord_of_decode s ((decode_symbolWord _ sym).trans hi)

/-- The step runs the symbol at the cursor (40_framer.md R91). -/
theorem step_phase {i : Instr} (hc : s.calls = []) (hi : phaseInstr s.st (nextSymbol s) = .ok i) :
    step s = exec i s := by
  rw [step, fetch_noCall hc, runFetched_fetchSymbol hi]

/-- `S_END` runs nothing (40_framer.md R93). -/
theorem runFetched_fetchSymbol_end (sym : Symbol) (hst : s.st = .sEnd) :
    runFetched (fetchSymbol sym s) = .next (quiet s) := by
  rw [fetchSymbol_end sym hst, runFetched]

theorem step_end (hc : s.calls = []) (hst : s.st = .sEnd) : step s = .next (quiet s) := by
  rw [step, fetch_noCall hc, runFetched_fetchSymbol_end _ hst]

/-- Settles O32: the phase decodes the symbol, and a word asked for by name is fetched first. -/
theorem stepRunsDecodedInstruction : Obligations.StepRunsDecodedInstruction := by
  rintro s _ rfl
  have phase {i : Instr} {ph : Phase} (hi : phaseInstr ph (nextSymbol s) = .ok i) (hc : s.calls = [])
      (hst : s.st = ph) : step s = exec i s := step_phase hc (hst ▸ hi)
  refine ⟨phase rfl, phase rfl, phase rfl, phase rfl, step_end, fun w rest i hc hw => ?_⟩
  rw [step, fetch_call hc]
  exact runWord_of_decode _ hw

/-- Settles O33: neither a step nor a cycle, with or without a symbol, runs anything in `S_END`. -/
theorem endIsAbsorbing : Obligations.EndIsAbsorbing := by
  intro s p hst
  refine ⟨fun hc => step_end hc hst, fun hrst => ?_, by simp [inReady, hst]⟩
  rw [clockEdge, edge, if_neg (by simp [hrst])]
  split
  · exact runFetched_fetchSymbol_end _ hst
  · rfl

/-! ## Totality (40_framer.md R90) -/

theorem execReadCount_answers (sym : Symbol) (hst : s.st = .sCount) :
    ∃ t, execReadCount sym s = .next t := by
  cases sym with
  | eos => exact ⟨_, execReadCount_eos hst⟩
  | byte b => exact execReadCount_byte_answers b hst

theorem execReadLen_answers (sym : Symbol) (hst : s.st = .sLen) : ∃ t, execReadLen sym s = .next t := by
  cases sym with
  | eos => exact ⟨_, execReadLen_eos hst⟩
  | byte b => exact execReadLen_byte_answers b hst

theorem execReadDrain_answers (sym : Symbol) (hst : s.st = .sDrain) :
    ∃ t, execReadDrain sym s = .next t := by
  cases sym with
  | eos => exact ⟨_, execReadDrain_eos hst⟩
  | byte b =>
    by_cases hd : s.rcvd + 1#32 = s.dlen
    · exact ⟨_, execReadDrain_last b hst hd⟩
    · exact ⟨_, execReadDrain_more b hst hd⟩

/-- The one operation whose totality needs the invariant: the buffer has room, and is filled at the end. -/
theorem Inv.execReadPayload_answers (h : Inv s) (sym : Symbol) (hst : s.st = .sPayload) :
    ∃ t, Machine.execReadPayload sym s = .next t := by
  cases sym with
  | eos => exact ⟨_, execReadPayload_eos hst⟩
  | byte b =>
    rw [execReadPayload_stores b hst (h.payload_room hst).1]
    split
    · rename_i hd
      exact h.lastPayloadByte_completes hst b hd
    · exact ⟨_, rfl⟩

/-- Settles O43, phase by phase. -/
theorem stepAnswersNextState : Obligations.StepAnswersNextState := by
  intro s h
  have hc := h.noCalls
  obtain ⟨hcount, hlen, hpayload, hdrain, hend, -⟩ := stepRunsDecodedInstruction s (nextSymbol s) rfl
  cases hst : s.st with
  | sCount => rw [hcount hc hst]; exact execReadCount_answers _ hst
  | sLen => rw [hlen hc hst]; exact execReadLen_answers _ hst
  | sPayload => rw [hpayload hc hst]; exact h.execReadPayload_answers _ hst
  | sDrain => rw [hdrain hc hst]; exact execReadDrain_answers _ hst
  | sEnd => exact ⟨_, hend hc hst⟩

end Sys2Proof.Machine
end

section
/-!
Runs of the step (40_framer.md R91, R92): every run ends, and what follows the last record has no effect.
-/

namespace Sys2Proof.Machine

variable {s t : State}

/-! ## One step more -/

/-- A run of `k + 1` steps is a step and a run of `k` steps. -/
theorem run_succ {k : Nat} (h : step s = .next t) : Host.Core.run core (k + 1) s = Host.Core.run core k t := by
  simp only [Host.Core.run, core, h]

/-- A run that answers begins with a step that does. -/
theorem run_succ_cases {k : Nat} (h : Host.Core.run core (k + 1) s = .next t) :
    ∃ s', step s = .next s' ∧ Host.Core.run core k s' = .next t := by
  simp only [Host.Core.run, core] at h
  split at h
  next s' hs => exact ⟨s', hs, h⟩
  next => cases h
  next => cases h

/-- What every step keeps in the states of the invariant, a run from one of them keeps. -/
theorem run_induction {P : State → Prop} (hP : ∀ s t, Inv s → P s → step s = .next t → P t) {k : Nat}
    (hinv : Inv s) (hs : P s) (h : Host.Core.run core k s = .next t) : Inv t ∧ P t := by
  induction k generalizing s with
  | zero =>
    cases h
    exact ⟨hinv, hs⟩
  | succ k ih =>
    obtain ⟨s', hstep, hrun⟩ := run_succ_cases h
    exact ih (stepKeepsInvariant _ _ hinv hstep) (hP _ _ hinv hs hstep) hrun

/-- A run keeps the invariant (10_state.md R35). -/
theorem run_keeps_inv {k : Nat} (hinv : Inv s) (h : Host.Core.run core k s = .next t) : Inv t :=
  (run_induction (P := Inv) (fun u v _ hu => stepKeepsInvariant u v hu) hinv hinv h).1

/-! ## The end of the stream and the end of the run -/

/-- A step with nothing asked for by name leaves the input and the build parameters (20_memory.md R53). -/
theorem step_sameInput (hc : s.calls = []) (h : step s = .next t) : SameInput s t := by
  rcases step_cases hc h with ⟨-, h⟩ | ⟨-, h⟩ | ⟨-, h⟩ | ⟨-, h⟩ | ⟨-, rfl⟩
  · exact (answers_of_execReadCount h).sameInput nofun
  · exact (answers_of_execReadLen h).sameInput nofun
  · exact (answers_of_execReadPayload h).sameInput nofun
  · exact (answers_of_execReadDrain h).sameInput nofun
  · exact ⟨rfl, rfl, rfl⟩

/-- In every phase but `S_END` the end of the stream ends the run as truncated (60_exceptions.md R152, R153). -/
theorem step_eos (hc : s.calls = []) (hst : s.st ≠ .sEnd) (hcur : s.stream.length ≤ s.cur) :
    ∃ code idx, code ≠ .ok ∧ step s = .next (endRun code idx (quiet s)) := by
  obtain ⟨hcount, hlen, hpayload, hdrain, -, -⟩ := stepRunsDecodedInstruction s .eos (nextSymbol_eos hcur).symm
  cases hs : s.st with
  | sCount => exact ⟨.truncatedStream, 0#32, nofun, (hcount hc hs).trans (execReadCount_eos hs)⟩
  | sLen => exact ⟨.truncatedRecord, s.pidx, nofun, (hlen hc hs).trans (execReadLen_eos hs)⟩
  | sPayload => exact ⟨.truncatedRecord, s.pidx, nofun, (hpayload hc hs).trans (execReadPayload_eos hs)⟩
  | sDrain => exact ⟨.truncatedRecord, s.pidx, nofun, (hdrain hc hs).trans (execReadDrain_eos hs)⟩
  | sEnd => exact absurd hs hst

/-- A run of one step more than there are bytes left reaches `S_END` (40_framer.md R91). -/
theorem run_reaches_end {k : Nat} (h : Inv s) (hk : s.st = .sEnd ∨ s.stream.length - s.cur < k) :
    ∃ t, Host.Core.run core k s = .next t ∧ t.st = .sEnd := by
  induction k generalizing s with
  | zero => exact ⟨s, rfl, hk.resolve_right (Nat.not_lt_zero _)⟩
  | succ k ih =>
    obtain ⟨t, ht⟩ := stepAnswersNextState s h
    rw [run_succ ht]
    refine ih (stepKeepsInvariant s t h ht) ?_
    by_cases hst : s.st = .sEnd
    · rw [step_end h.noCalls hst] at ht
      cases ht
      exact .inl hst
    by_cases hcur : s.cur < s.stream.length
    · have hmoved := stepMovesCursorByOneByte s t h.noCalls ht
      rw [if_pos ⟨hst, hcur⟩] at hmoved
      have hleft := hk.resolve_left hst
      refine .inr ?_
      rw [(step_sameInput h.noCalls ht).stream]
      omega
    · obtain ⟨code, idx, -, he⟩ := step_eos h.noCalls hst (Nat.le_of_not_lt hcur)
      rw [he] at ht
      cases ht
      exact .inl rfl

/-- Settles O46: the run reaches `S_END`, where the invariant says what has been reported. -/
theorem runReachesEnd : Obligations.RunReachesEnd := by
  intro s h
  obtain ⟨t, ht, hst⟩ := run_reaches_end h (.inr (Nat.lt_succ_self _))
  have hinv := run_keeps_inv h ht
  have hends := hinv.ends
  rw [if_pos hst] at hends
  exact ⟨t, ht, hst, hends, hinv.endLast hst⟩

/-! ## Another stream (40_framer.md R92) -/

/-- The state with the stream `x` in place of its own. -/
def setStream (x : List Byte) (s : State) : State := { s with stream := x }

section SetStream

variable (x : List Byte)

theorem toNextRecord_setStream (s : State) :
    toNextRecord (setStream x s) = setStream x (toNextRecord s) := by
  rcases toNextRecord_cases s with ⟨hp, he⟩ | ⟨hp, he⟩ <;> rw [he]
  · exact toNextRecord_last _ hp
  · exact toNextRecord_more _ hp

theorem completeRecord_setStream {plen : U32} (h : completeRecord plen s = .next t) :
    completeRecord plen (setStream x s) = .next (setStream x t) := by
  obtain ⟨hshort, rfl⟩ | ⟨hlong, bs, hbs, rfl⟩ := completeRecord_cases h
  · exact (completeRecord_short _ hshort).trans
      (congrArg _ (toNextRecord_setStream x (report s.dlen _ plen _ s)))
  · exact (completeRecord_decoded (s := setStream x s) hlong hbs).trans
      (congrArg _ (toNextRecord_setStream x (report s.dlen _ plen _ s)))

theorem dispatchLength_setStream {d : U32} (h : dispatchLength d s = .next t) :
    dispatchLength d (setStream x s) = .next (setStream x t) := by
  rcases dispatchLength_cases d s with ⟨hm, he⟩ | ⟨rfl, he⟩ | ⟨hm, h0, he⟩ <;> rw [he] at h <;> cases h
  · exact dispatchLength_tooLarge _ hm
  · exact (dispatchLength_zero _).trans
      (congrArg _ (toNextRecord_setStream x (report s.dlen _ 0#32 _ s)))
  · exact dispatchLength_payload _ hm h0

/-! The four operations on a symbol do not look at the stream: the symbol is all they know of it. -/

theorem execReadCount_setStream {sym : Symbol} (h : execReadCount sym s = .next t) :
    execReadCount sym (setStream x s) = .next (setStream x t) := by
  obtain ⟨hst, ⟨rfl, rfl⟩ | ⟨b, rfl, hb, rfl⟩ | ⟨b, rfl, hb, hn, rfl⟩ | ⟨b, rfl, hb, hn, rfl⟩⟩ :=
    execReadCount_cases h
  · exact execReadCount_eos hst
  · exact execReadCount_more b hst hb
  · exact execReadCount_zero b hst hb hn
  · exact execReadCount_done b hst hb hn

theorem execReadLen_setStream {sym : Symbol} (h : execReadLen sym s = .next t) :
    execReadLen sym (setStream x s) = .next (setStream x t) := by
  obtain ⟨hst, ⟨rfl, rfl⟩ | ⟨b, rfl, hb, rfl⟩ | ⟨b, rfl, hb, hd⟩⟩ := execReadLen_cases h
  · exact execReadLen_eos hst
  · exact execReadLen_more b hst hb
  · exact (execReadLen_last (s := setStream x s) b hst hb).trans (dispatchLength_setStream x hd)

theorem execReadPayload_setStream {sym : Symbol} (h : execReadPayload sym s = .next t) :
    execReadPayload sym (setStream x s) = .next (setStream x t) := by
  obtain ⟨hst, ⟨rfl, rfl⟩ | ⟨b, rfl, hm, hd, rfl⟩ | ⟨b, rfl, hm, hd, hc⟩⟩ := execReadPayload_cases h
  · exact execReadPayload_eos hst
  · exact (execReadPayload_stores (s := setStream x s) b hst hm).trans (if_neg hd)
  · exact (execReadPayload_stores (s := setStream x s) b hst hm).trans
      ((if_pos hd).trans (completeRecord_setStream x hc))

theorem execReadDrain_setStream {sym : Symbol} (h : execReadDrain sym s = .next t) :
    execReadDrain sym (setStream x s) = .next (setStream x t) := by
  obtain ⟨hst, ⟨rfl, rfl⟩ | ⟨b, rfl, hd, rfl⟩ | ⟨b, rfl, hd, rfl⟩⟩ := execReadDrain_cases h
  · exact execReadDrain_eos hst
  · exact execReadDrain_more b hst hd
  · exact (execReadDrain_last (s := setStream x s) b hst hd).trans
      (congrArg _ (toNextRecord_setStream x (drainByte b s)))

/-- A step depends on the stream only through the symbol at the cursor, which `S_END` does not take. -/
theorem step_setStream (hc : s.calls = []) (hsym : s.st = .sEnd ∨ nextSymbol (setStream x s) = nextSymbol s)
    (h : step s = .next t) : step (setStream x s) = .next (setStream x t) := by
  obtain ⟨hcount, hlen, hpayload, hdrain, hend, -⟩ :=
    stepRunsDecodedInstruction (setStream x s) (nextSymbol (setStream x s)) rfl
  by_cases hst : s.st = .sEnd
  · rw [step_end hc hst] at h
    cases h
    exact hend hc hst
  rw [hsym.resolve_left hst] at hcount hlen hpayload hdrain
  rcases step_cases hc h with ⟨hst, hx⟩ | ⟨hst, hx⟩ | ⟨hst, hx⟩ | ⟨hst, hx⟩ | ⟨hst', -⟩
  · exact (hcount hc hst).trans (execReadCount_setStream x hx)
  · exact (hlen hc hst).trans (execReadLen_setStream x hx)
  · exact (hpayload hc hst).trans (execReadPayload_setStream x hx)
  · exact (hdrain hc hst).trans (execReadDrain_setStream x hx)
  · exact absurd hst' hst

end SetStream

/-- Bytes after those of the stream do not change the symbol at a cursor inside it. -/
theorem nextSymbol_append (bs : List Byte) (h : s.cur < s.stream.length) :
    nextSymbol (setStream (s.stream ++ bs) s) = nextSymbol s := by
  simp only [nextSymbol, setStream, List.getElem?_append_left h]

/-- The end status of a run that has ended stands (10_state.md R24). -/
theorem run_end_endCode {k : Nat} (hinv : Inv s) (hst : s.st = .sEnd)
    (h : Host.Core.run core k s = .next t) : t.endCode = s.endCode := by
  obtain ⟨-, -, hcode⟩ := run_induction (P := fun u => u.st = .sEnd ∧ u.endCode = s.endCode)
    (fun u v hu hP huv => by
      rw [step_end hu.noCalls hP.1] at huv
      cases huv
      exact hP) hinv ⟨hst, rfl⟩ h
  exact hcode

/-- A run that ends with `OK` never takes the end of the stream, so bytes after it change nothing. -/
theorem run_append_of_ok (bs : List Byte) {k : Nat} (hinv : Inv s)
    (h : Host.Core.run core k s = .next t) (hok : t.endCode = .ok) :
    Host.Core.run core k (setStream (s.stream ++ bs) s) = .next (setStream (s.stream ++ bs) t) := by
  induction k generalizing s with
  | zero =>
    cases h
    rfl
  | succ k ih =>
    obtain ⟨s', hstep, hrun⟩ := run_succ_cases h
    have hinv' := stepKeepsInvariant s s' hinv hstep
    have hsym : s.st = .sEnd ∨ s.cur < s.stream.length := by
      by_contra hne
      obtain ⟨hst, hcur⟩ := not_or.mp hne
      obtain ⟨code, idx, hcode, he⟩ := step_eos hinv.noCalls hst (Nat.le_of_not_lt hcur)
      rw [he] at hstep
      cases hstep
      exact hcode ((run_end_endCode hinv' rfl hrun).symm.trans hok)
    rw [run_succ (step_setStream _ hinv.noCalls (hsym.imp_right (nextSymbol_append bs)) hstep),
      ← (step_sameInput hinv.noCalls hstep).stream]
    exact ih hinv' hrun

/-- Settles O50: the run that starts on the longer stream takes the same steps. -/
theorem trailingBytesHaveNoEffect : Obligations.TrailingBytesHaveNoEffect :=
  fun p bytes trailing _ hrun hok => run_append_of_ok trailing (invariantAtStart.2 p bytes).1 hrun hok

end Sys2Proof.Machine
end

section
/-!
The functional reading of a run (40_framer.md R94). `outlook s` is what the rest of the run from `s` gives, read
off the bytes that are left; together with what `s` has already emitted and consumed it is the same in every state of
a run, and in `S_END` nothing is left of it.
-/

namespace Sys2Proof.Machine

/-! ## What the rest of a run gives -/

/-- What the rest of a run gives: the events still to be emitted, and how many bytes are still to be consumed. -/
structure Outlook where
  events : List Event
  bytes : Nat

/-- An outlook seen from `k` consumed bytes and the events `es` earlier. -/
def Outlook.after (es : List Event) (k : Nat) (o : Outlook) : Outlook := ⟨es ++ o.events, k + o.bytes⟩

@[simp] theorem Outlook.after_zero (o : Outlook) : o.after [] 0 = o := by
  simp [Outlook.after]

@[simp] theorem Outlook.after_after (o : Outlook) (es es' : List Event) (k k' : Nat) :
    (o.after es k).after es' k' = o.after (es' ++ es) (k' + k) := by
  simp [Outlook.after, Nat.add_assoc]

/-- The run ends with the event `e` and consumes no more. -/
def Outlook.ends (e : Event) : Outlook := ⟨[e], 0⟩

/-- A count field is being read: byte `k` is next, the register holds `r`, `next` is what follows the field, and
`e` is the end if the stream ends inside it (40_framer.md R81, R83). -/
def fieldOutlook (en : Endian) (e : Event) (next : U32 → List Byte → Outlook) :
    Nat → U32 → List Byte → Outlook
  | _, _, [] => .ends e
  | k, r, b :: bs =>
    (if k = 3 then next (setLane en k b r) bs
      else fieldOutlook en e next (k + 1) (setLane en k b r) bs).after [] 1

/-- `m` bytes of a record are still to come; `report` is what is reported of them when they are all there, and
`next` is what follows (40_framer.md R85, R86). -/
def bodyOutlook (idx : U32) (report : List Byte → List Event) (next : List Byte → Outlook) (m : Nat)
    (bytes : List Byte) : Outlook :=
  if bytes.length < m then (Outlook.ends (.finish .truncatedRecord idx)).after [] bytes.length
  else (next (bytes.drop m)).after (report (bytes.take m)) m

/-- The records from index `idx` on, `left` of them, as the functional reading has them. -/
def recordsOutlook (p : Params) (n : U32) (left : Nat) (idx : U32) (bytes : List Byte) : Outlook :=
  ⟨recordsContract p n left idx bytes, recordsConsumed p.frameEndian left bytes⟩

/-- What follows the declared length `d` of the record `idx`, with `left` records after it (40_framer.md R84). -/
def lengthOutlook (p : Params) (n : U32) (left : Nat) (idx d : U32) (bytes : List Byte) : Outlook :=
  if p.maxPayload < d.toNat then
    (bodyOutlook idx (fun _ => []) (recordsOutlook p n left (idx + 1#32)) d.toNat bytes).after
      [.record idx d .recordTooLarge 0#32 none] 0
  else
    bodyOutlook idx (fun l => [recordEvent idx d l]) (recordsOutlook p n left (idx + 1#32)) d.toNat bytes

/-- What follows the count `n` (40_framer.md R81). -/
def countOutlook (p : Params) (n : U32) (bytes : List Byte) : Outlook :=
  (recordsOutlook p n n.toNat 1#32 bytes).after [.count n] 0

/-- The bytes that are left. -/
def unread (s : State) : List Byte := s.stream.drop s.cur

/-- The records after the current one. -/
def nextOutlook (s : State) : List Byte → Outlook :=
  recordsOutlook s.params s.pcount (s.pcount.toNat - s.pidx.toNat) (s.pidx + 1#32)

/-- What the rest of the run from a state gives, phase by phase. -/
def outlook (s : State) : Outlook :=
  match s.st with
  | .sCount =>
    fieldOutlook s.params.frameEndian (.finish .truncatedStream 0#32) (countOutlook s.params) s.bcnt.toNat s.pcount
      (unread s)
  | .sLen =>
    fieldOutlook s.params.frameEndian (.finish .truncatedRecord s.pidx)
      (lengthOutlook s.params s.pcount (s.pcount.toNat - s.pidx.toNat) s.pidx) s.bcnt.toNat s.dlen (unread s)
  | .sPayload =>
    bodyOutlook s.pidx (fun l => [recordEvent s.pidx s.dlen (s.pbuf.map Prod.snd ++ l)]) (nextOutlook s)
      (s.dlen.toNat - s.rcvd.toNat) (unread s)
  | .sDrain =>
    bodyOutlook s.pidx (fun _ => []) (nextOutlook s) (s.dlen.toNat - s.rcvd.toNat) (unread s)
  | .sEnd => ⟨[], 0⟩

/-- What the whole run of a state gives, with what it has already emitted and consumed. -/
def wholeRun (s : State) : Outlook := (outlook s).after s.events s.cur

variable {s t : State}

/-! ## The bytes of a field and of a body, one by one -/

section Field

variable (en : Endian) (e : Event) (next : U32 → List Byte → Outlook)

/-- From byte 0 on the register does not matter, and the field is that of the functional reading. -/
theorem fieldOutlook_zero (r : U32) (bytes : List Byte) :
    fieldOutlook en e next 0 r bytes =
      match takeCount en bytes with
      | none => (Outlook.ends e).after [] bytes.length
      | some (d, rest) => (next d rest).after [] 4 := by
  match bytes with
  | [] | [_] | [_, _] | [_, _, _] => simp [fieldOutlook, takeCount]
  | b0 :: b1 :: b2 :: b3 :: rest => simp [fieldOutlook, takeCount, setLane_all]

/-- A byte that is not the last goes to its lane. -/
theorem fieldOutlook_more {k : BitVec 2} (hk : k ≠ 3#2) (r : U32) (b : Byte) (bs : List Byte) :
    fieldOutlook en e next k.toNat r (b :: bs) =
      (fieldOutlook en e next (k + 1#2).toNat (setLane en k.toNat b r) bs).after [] 1 := by
  have hnot : k.toNat ≠ 3 := by bv_omega
  have hsucc : (k + 1#2).toNat = k.toNat + 1 := by bv_omega
  rw [fieldOutlook, if_neg hnot, hsucc]

/-- The last byte completes the field. -/
theorem fieldOutlook_last (r : U32) (b : Byte) (bs : List Byte) :
    fieldOutlook en e next 3 r (b :: bs) = (next (setLane en 3 b r) bs).after [] 1 := rfl

end Field

section Body

variable (idx : U32) (report : List Byte → List Event) (next : List Byte → Outlook)

theorem bodyOutlook_nil {m : Nat} (h : 0 < m) :
    bodyOutlook idx report next m [] = .ends (.finish .truncatedRecord idx) := by
  simp [bodyOutlook, h]

theorem bodyOutlook_zero (bytes : List Byte) :
    bodyOutlook idx report next 0 bytes = (next bytes).after (report []) 0 := by
  simp [bodyOutlook]

theorem bodyOutlook_cons (m : Nat) (b : Byte) (bs : List Byte) :
    bodyOutlook idx report next (m + 1) (b :: bs) =
      (bodyOutlook idx (fun l => report (b :: l)) next m bs).after [] 1 := by
  simp only [bodyOutlook, List.length_cons, Nat.add_lt_add_iff_right, List.drop_succ_cons, List.take_succ_cons]
  split <;> simp [Nat.add_comm]

end Body

/-- No record more: the end of the run. -/
theorem recordsOutlook_zero (p : Params) (n idx : U32) (bytes : List Byte) :
    recordsOutlook p n 0 idx bytes = .ends (.finish .ok n) := rfl

/-- A count field is four bytes (30_encoding.md R64). -/
theorem length_of_takeCount {en : Endian} {bytes rest : List Byte} {d : U32}
    (h : takeCount en bytes = some (d, rest)) : bytes.length = 4 + rest.length := by
  match bytes with
  | [] | [_] | [_, _] | [_, _, _] => cases h
  | _ :: _ :: _ :: _ :: _ =>
    cases h
    simp only [List.length_cons]
    omega

/-- One record more: its length, and what follows it. -/
theorem recordsOutlook_succ (p : Params) (n : U32) (left : Nat) (idx r : U32) (bytes : List Byte) :
    recordsOutlook p n (left + 1) idx bytes =
      fieldOutlook p.frameEndian (.finish .truncatedRecord idx) (lengthOutlook p n left idx) 0 r bytes := by
  rw [fieldOutlook_zero, recordsOutlook, recordsContract, recordsConsumed]
  cases htaken : takeCount p.frameEndian bytes with
  | none => simp [Outlook.ends, Outlook.after]
  | some taken =>
    obtain ⟨d, rest⟩ := taken
    simp only [lengthOutlook, bodyOutlook]
    split <;> split <;>
      simp [Outlook.after, Outlook.ends, recordsOutlook, length_of_takeCount htaken, Nat.add_assoc]

/-! ## The parts of a step -/

/-- `next_record()` goes on with the records after the current one, or ends the run when there is none
(40_framer.md R89). -/
theorem wholeRun_toNextRecord (hb : s.bcnt = 0#2) (hp : s.pidx.toNat ≤ s.pcount.toNat) :
    wholeRun (toNextRecord s) = (nextOutlook s (unread s)).after s.events s.cur := by
  rcases toNextRecord_cases s with ⟨heq, he⟩ | ⟨hne, he⟩ <;> rw [he]
  · simp [wholeRun, outlook, nextOutlook, heq, recordsOutlook_zero, Outlook.ends, Outlook.after]
  · have hlt : s.pidx.toNat < s.pcount.toNat :=
      lt_of_le_of_ne hp fun heq => hne (BitVec.eq_of_toNat_eq heq)
    have hsucc : (s.pidx + 1#32).toNat = s.pidx.toNat + 1 := by bv_omega
    have hleft : s.pcount.toNat - s.pidx.toNat = s.pcount.toNat - (s.pidx.toNat + 1) + 1 := by omega
    simp only [wholeRun, outlook, nextOutlook, hleft, recordsOutlook_succ _ _ _ _ s.dlen, hsucc, hb]
    rfl

/-- What a filled buffer reads as is the list of the bytes stored (10_state.md R14). -/
theorem Memory.read_of_filled {m : Memory} {a n : Nat} (h : m.map Prod.fst = List.range' a n) (k : Nat) :
    m.read (a + k) = (m.map Prod.snd)[k]? := by
  induction m generalizing a n k with
  | nil => rfl
  | cons c m ih =>
    obtain ⟨n, rfl⟩ : ∃ n', n = n' + 1 := Nat.exists_eq_add_one_of_ne_zero (by rintro rfl; simp at h)
    simp only [List.map_cons, List.range'_succ, List.cons.injEq] at h
    obtain ⟨rfl, hm⟩ := h
    cases k with
    | zero => simp
    | succ k => simpa [Nat.add_assoc, Nat.add_comm 1 k] using ih hm k

/-- The header that a filled buffer gives is that of the bytes stored. -/
theorem BufferFilled.headerOf_memRead {bs : List Byte} (h : BufferFilled s) (hbs : memRead 0 20 s = some bs) :
    headerOf (fun n => bs.getD n 0#8) = headerOf fun n => (s.pbuf.map Prod.snd).getD n 0#8 := by
  obtain ⟨-, -, hread⟩ := (memRead_eq_some_iff 0 20 s bs).mp hbs
  refine headerOf_congr fun n hn => ?_
  rw [List.getD_eq_getElem?_getD, List.getD_eq_getElem?_getD, ← hread n hn,
    Memory.read_of_filled (h.trans (List.range_eq_range' ..)) n]

/-- A buffered record that completes is reported as the functional reading reports it (40_framer.md R87). -/
theorem wholeRun_completeRecord (hb : s.bcnt = 0#2) (hp : s.pidx.toNat ≤ s.pcount.toNat)
    (hfill : BufferFilled s) (h : completeRecord s.dlen s = .next t) :
    wholeRun t = (nextOutlook s (unread s)).after
      (s.events ++ [recordEvent s.pidx s.dlen (s.pbuf.map Prod.snd)]) s.cur := by
  obtain ⟨hshort, rfl⟩ | ⟨hlong, bs, hbs, rfl⟩ := completeRecord_cases h
  · rw [recordEvent, hdrLen, if_pos hshort]
    exact wholeRun_toNextRecord hb hp
  · rw [recordEvent, hdrLen, if_neg (Nat.not_lt.mpr hlong), ← hfill.headerOf_memRead hbs]
    exact wholeRun_toNextRecord hb hp

/-- A completed length is dispatched as the functional reading does (40_framer.md R84). -/
theorem wholeRun_dispatchLength (hb : s.bcnt = 0#2) (hp : s.pidx.toNat ≤ s.pcount.toNat) (hr : s.rcvd = 0#32)
    (hbuf : s.pbuf = []) (h : dispatchLength s.dlen s = .next t) :
    wholeRun t = (lengthOutlook s.params s.pcount (s.pcount.toNat - s.pidx.toNat) s.pidx s.dlen
      (unread s)).after s.events s.cur := by
  rcases dispatchLength_cases s.dlen s with ⟨hm, he⟩ | ⟨h0, he⟩ | ⟨hm, -, he⟩ <;> rw [he] at h <;> cases h
  · rw [lengthOutlook, if_pos hm]
    simp [wholeRun, outlook, nextOutlook, unread, hr]
  · have hfill : BufferFilled s := by simp [BufferFilled, hr, hbuf]
    have hc := completeRecord_short s (plen := s.dlen) (by simp [h0])
    have hwhole := wholeRun_completeRecord hb hp hfill hc
    rw [lengthOutlook, if_neg (by simp [h0]), show s.dlen.toNat = 0 by simp [h0], bodyOutlook_zero]
    simpa [h0, hbuf, nextOutlook] using hwhole
  · rw [lengthOutlook, if_neg (Nat.not_lt.mpr hm)]
    simp [wholeRun, outlook, nextOutlook, unread, hr, hbuf]

/-! ## One step -/

/-- The byte at the cursor is the first unread byte. -/
theorem drop_cur_of_nextSymbol_byte {b : Byte} (h : nextSymbol s = .byte b) :
    s.stream.drop s.cur = b :: s.stream.drop (s.cur + 1) := by
  unfold nextSymbol at h
  split at h <;> cases h
  next hb =>
    obtain ⟨hlt, rfl⟩ := List.getElem?_eq_some_iff.mp hb
    exact List.drop_eq_getElem_cons hlt

/-- At the end of the stream no byte is unread. -/
theorem drop_cur_of_nextSymbol_eos (h : nextSymbol s = .eos) : s.stream.drop s.cur = [] := by
  unfold nextSymbol at h
  split at h
  next => cases h
  next hb => exact List.drop_eq_nil_of_le (List.getElem?_eq_none_iff.mp hb)

/-- The run ends as its outlook says. -/
theorem wholeRun_endRun {c : EndCode} {idx : U32} (h : outlook s = .ends (.finish c idx)) :
    wholeRun (endRun c idx (quiet s)) = wholeRun s := by
  rw [wholeRun, wholeRun, h]
  simp [outlook, Outlook.ends, Outlook.after]

/-- A byte is taken, and the events `es` that the outlook had are emitted. -/
theorem wholeRun_of_byte {es : List Event} {o : Outlook} (ho : outlook s = o.after es 1)
    (ht : wholeRun t = o.after (s.events ++ es) (s.cur + 1)) : wholeRun t = wholeRun s := by
  rw [ht, wholeRun, ho, Outlook.after_after]

theorem wholeRun_execReadCount (h : execReadCount (nextSymbol s) s = .next t) : wholeRun t = wholeRun s := by
  obtain ⟨hst, ⟨hsym, rfl⟩ | ⟨b, hsym, hb, rfl⟩ | ⟨b, hsym, hb, hn, rfl⟩ | ⟨b, hsym, hb, hn, rfl⟩⟩ :=
    execReadCount_cases h
  · exact wholeRun_endRun (by simp [outlook, hst, unread, drop_cur_of_nextSymbol_eos hsym, fieldOutlook])
  all_goals have hread := drop_cur_of_nextSymbol_byte hsym
  · refine wholeRun_of_byte (es := []) (o := outlook { countByte b s with bcnt := s.bcnt + 1#2 }) ?_ ?_
    · simp [outlook, hst, unread, hread, fieldOutlook_more _ _ _ hb]
    · simp [wholeRun]
  · have hzero : setLane s.params.frameEndian 3 b s.pcount = 0#32 := by simpa [hb] using hn
    refine wholeRun_of_byte (es := [.count 0#32, .finish .ok 0#32]) (o := ⟨[], 0⟩) ?_ ?_
    · simp [outlook, hst, unread, hread, fieldOutlook_last, hb, hzero, countOutlook, recordsOutlook_zero,
        Outlook.ends, Outlook.after]
    · simp [wholeRun, outlook]
  · have hleft : (countByte b s).pcount.toNat = (countByte b s).pcount.toNat - 1 + 1 := by bv_omega
    refine wholeRun_of_byte (es := [.count (countByte b s).pcount])
      (o := recordsOutlook s.params (countByte b s).pcount (countByte b s).pcount.toNat 1#32
        (s.stream.drop (s.cur + 1))) ?_ ?_
    · simp [outlook, hst, unread, hread, fieldOutlook_last, countOutlook, hb]
    · rw [hleft, recordsOutlook_succ _ _ _ _ s.dlen]
      rfl

theorem wholeRun_execReadLen (hp : s.pidx.toNat ≤ s.pcount.toNat)
    (h : execReadLen (nextSymbol s) s = .next t) : wholeRun t = wholeRun s := by
  obtain ⟨hst, ⟨hsym, rfl⟩ | ⟨b, hsym, hb, rfl⟩ | ⟨b, hsym, hb, hd⟩⟩ := execReadLen_cases h
  · exact wholeRun_endRun (by simp [outlook, hst, unread, drop_cur_of_nextSymbol_eos hsym, fieldOutlook])
  all_goals have hread := drop_cur_of_nextSymbol_byte hsym
  · refine wholeRun_of_byte (es := []) (o := outlook { lengthByte b s with bcnt := s.bcnt + 1#2 }) ?_ ?_
    · simp [outlook, hst, unread, hread, fieldOutlook_more _ _ _ hb]
    · simp [wholeRun]
  · have hwhole := wholeRun_dispatchLength (s := lengthDone b s) rfl hp rfl rfl hd
    refine wholeRun_of_byte (es := []) ?_ (hwhole.trans (by rw [List.append_nil]; rfl))
    simp [outlook, hst, unread, hread, fieldOutlook_last, hb]

/-- The bytes stored after one more (40_framer.md R85). -/
theorem BufferFilled.bytes_write (h : BufferFilled s) (b : Byte) :
    (s.pbuf.write s.rcvd.toNat b).map Prod.snd = s.pbuf.map Prod.snd ++ [b] := by
  have hbelow : ∀ x ∈ s.pbuf.map Prod.fst, x < s.rcvd.toNat := by
    rw [h]
    simp
  rw [Memory.write_append b hbelow, List.map_append]
  rfl

theorem wholeRun_execReadPayload (hinv : Inv s) (h : execReadPayload (nextSymbol s) s = .next t) :
    wholeRun t = wholeRun s := by
  obtain ⟨hst, hcases⟩ := execReadPayload_cases h
  obtain ⟨hb, -, -, hlt, hfill⟩ := hinv.inPayload hst
  obtain ⟨-, hp, -, -⟩ := hinv.inRecord (.inr (.inl hst))
  obtain ⟨-, hsucc⟩ := hinv.payload_room hst
  have hleft : s.dlen.toNat - s.rcvd.toNat = s.dlen.toNat - (s.rcvd + 1#32).toNat + 1 := by omega
  rcases hcases with ⟨hsym, rfl⟩ | ⟨b, hsym, -, hd, rfl⟩ | ⟨b, hsym, -, hd, hc⟩
  · have hmissing : 0 < s.dlen.toNat - s.rcvd.toNat := by omega
    exact wholeRun_endRun
      (by simp [outlook, hst, unread, drop_cur_of_nextSymbol_eos hsym, bodyOutlook_nil _ _ _ hmissing])
  all_goals
    have hread := drop_cur_of_nextSymbol_byte hsym
    have hbytes := hfill.bytes_write b
  · refine wholeRun_of_byte (es := []) (o := outlook (payloadByte b s)) ?_ ?_
    · simp only [outlook, hst, payloadByte_st, unread, hread, hleft, bodyOutlook_cons]
      simp [nextOutlook, hbytes]
    · simp [wholeRun]
  · have hwhole := wholeRun_completeRecord (s := payloadByte b s) hb hp (hfill.payloadByte b hsucc) hc
    refine wholeRun_of_byte ?_ hwhole
    simp only [outlook, hst, unread, hread, hleft, bodyOutlook_cons, hd, Nat.sub_self, bodyOutlook_zero]
    simp [nextOutlook, hbytes]

theorem wholeRun_execReadDrain (hinv : Inv s) (h : execReadDrain (nextSymbol s) s = .next t) :
    wholeRun t = wholeRun s := by
  obtain ⟨hst, hcases⟩ := execReadDrain_cases h
  obtain ⟨hb, -, hlt, -, -⟩ := hinv.inDrain hst
  obtain ⟨-, hp, -, -⟩ := hinv.inRecord (.inr (.inr hst))
  have hsucc : (s.rcvd + 1#32).toNat = s.rcvd.toNat + 1 := by bv_omega
  have hleft : s.dlen.toNat - s.rcvd.toNat = s.dlen.toNat - (s.rcvd + 1#32).toNat + 1 := by omega
  rcases hcases with ⟨hsym, rfl⟩ | ⟨b, hsym, hd, rfl⟩ | ⟨b, hsym, hd, rfl⟩
  · have hmissing : 0 < s.dlen.toNat - s.rcvd.toNat := by omega
    exact wholeRun_endRun
      (by simp [outlook, hst, unread, drop_cur_of_nextSymbol_eos hsym, bodyOutlook_nil _ _ _ hmissing])
  all_goals have hread := drop_cur_of_nextSymbol_byte hsym
  · refine wholeRun_of_byte (es := []) (o := outlook (drainByte b s)) ?_ ?_
    · simp only [outlook, hst, drainByte_st, unread, hread, hleft, bodyOutlook_cons]
      rfl
    · simp [wholeRun]
  · have hwhole := wholeRun_toNextRecord (s := drainByte b s) hb hp
    refine wholeRun_of_byte (es := []) ?_ (hwhole.trans (by rw [List.append_nil]; rfl))
    simp only [outlook, hst, unread, hread, hleft, bodyOutlook_cons, hd, Nat.sub_self, bodyOutlook_zero]
    simp [nextOutlook]

/-- What the whole run gives is the same after every step. -/
theorem wholeRun_step (hinv : Inv s) (h : step s = .next t) : wholeRun t = wholeRun s := by
  rcases step_cases hinv.noCalls h with ⟨-, hx⟩ | ⟨hst, hx⟩ | ⟨-, hx⟩ | ⟨-, hx⟩ | ⟨-, rfl⟩
  · exact wholeRun_execReadCount hx
  · obtain ⟨-, hp, -, -⟩ := hinv.inRecord (.inl hst)
    exact wholeRun_execReadLen hp hx
  · exact wholeRun_execReadPayload hinv hx
  · exact wholeRun_execReadDrain hinv hx
  · rfl

/-! ## The whole run -/

/-- At the start the outlook is the functional reading of the stream. -/
theorem wholeRun_startOn (p : Params) (bytes : List Byte) :
    wholeRun (startOn p bytes) = ⟨runContract p bytes, consumedContract p bytes⟩ := by
  have hstart : wholeRun (startOn p bytes) = (fieldOutlook p.frameEndian (.finish .truncatedStream 0#32)
      (countOutlook p) 0 0#32 bytes).after [] 0 := rfl
  rw [hstart, Outlook.after_zero, fieldOutlook_zero, runContract, consumedContract]
  cases takeCount p.frameEndian bytes with
  | none => rfl
  | some taken =>
    obtain ⟨n, rest⟩ := taken
    simp [countOutlook, recordsOutlook, Outlook.after]

/-- In `S_END` it is what the run has emitted and consumed. -/
theorem wholeRun_of_end (hst : s.st = .sEnd) : wholeRun s = ⟨s.events, s.cur⟩ := by
  simp [wholeRun, outlook, hst, Outlook.after]

/-- Settles O47: the run ends, and what the whole run gives is the same at its start and at its end. -/
theorem runImplementsContract : Obligations.RunImplementsContract := by
  intro p bytes
  have hinv := (invariantAtStart.2 p bytes).1
  obtain ⟨t, hrun, hst, -, -⟩ := runReachesEnd (startOn p bytes) hinv
  obtain ⟨-, hwhole⟩ := run_induction (P := fun u => wholeRun u = wholeRun (startOn p bytes))
    (fun u v hu hsame hstep => (wholeRun_step hu hstep).trans hsame) hinv rfl hrun
  rw [wholeRun_of_end hst, wholeRun_startOn] at hwhole
  obtain ⟨hevents, hcur⟩ := Outlook.mk.inj hwhole
  exact ⟨t, hrun, hst, hevents, hcur⟩

end Sys2Proof.Machine
end

section
/-!
The fields that the block reports as it finds them (41_ipv4_fields.md R103, R108, R109, R111, R112).
-/

namespace Sys2Proof.Machine

/-- Settles O19: each of the five extractions is a `give` of its operand bytes, which writes nothing else. -/
theorem rawFieldValues : Obligations.RawFieldValues := by
  intro s b0 b1 b2 b3
  have hoctet := give_next (.u8 b0) s
  have haddress := give_next (.octets b0 b1 b2 b3) s
  exact ⟨hoctet, hoctet, hoctet, haddress, haddress⟩

end Sys2Proof.Machine
end

section
/-!
The protocol-name lookup (42_protocol_lookup.md R120 to R133): the twelve named rows and the default row.
-/

namespace Sys2Proof.Machine

/-! ## The named rows (42_protocol_lookup.md R121 to R132) -/

/-- The value that selects a named row is the one that the table gives this name. -/
@[simp] theorem protoName_protoKey (n : ProtoName) : protoName (protoKey n) = some n := by
  cases n <;> rfl

/-- A named row looks up the value that selects it. -/
theorem exec_nameInstr_lookUp (n : ProtoName) (s : State) : exec (nameInstr n) s = lookUp (protoKey n) s := by
  cases n <;> rfl

/-- A named row gives its name and changes nothing else. -/
@[simp] theorem exec_nameInstr (n : ProtoName) (s : State) :
    exec (nameInstr n) s = .next { s with ret := .name (some n) } := by
  rw [exec_nameInstr_lookUp, lookUp_next, protoName_protoKey]

/-- What R121 to R132 state of a name: the value, the row that it selects, the name and the `H_PNAME` code. -/
def namedRow (n : ProtoName) : Byte × Instr × ProtoName × BitVec 4 :=
  (protoKey n, nameInstr n, n, nameCode (some n))

/-- Settles O24: the rows of the list are those of the table's names, and each name's row is shown for all names. -/
theorem namedProtocols : Obligations.NamedProtocols := by
  intro s r hr
  obtain ⟨entry, -, rfl⟩ : ∃ entry ∈ protoTable, namedRow entry.2 = r := List.mem_map.mp hr
  exact ⟨decode_protoWord_protoKey entry.2, exec_nameInstr entry.2 s, rfl⟩

/-! ## The default row (42_protocol_lookup.md R133) -/

/-- A value has no name exactly when it is not a value of the table (42_protocol_lookup.md R120, R133). -/
theorem protoName_eq_none_iff (p : Byte) : protoName p = none ↔ p ∉ protoTable.map Prod.fst := by
  rw [protoName, List.lookup_eq_none_iff, List.mem_map]
  simp only [bne_iff_ne]
  exact ⟨fun h ⟨r, hr, hp⟩ => h r hr hp.symm, fun h r hr hp => h ⟨r, hr, hp.symm⟩⟩

/-- The default row gives an unnamed value no name and changes nothing else. -/
theorem exec_protoNone_unnamed {p : Byte} (h : protoName p = none) (s : State) :
    exec (.protoNone p) s = .next { s with ret := .name none } := by
  rw [exec, execProtoNone, if_pos (Option.isNone_iff_eq_none.mpr h), lookUp_next, h]

/-- The `H_PNAME` codes 13, 14 and 15 are never produced. -/
theorem nameCode_le (n : Option ProtoName) : (nameCode n).toNat ≤ 12 := by
  cases n with
  | none => decide
  | some n => cases n <;> decide

/-- Settles O25: a value outside the table has no name, so it selects the default row, which is in its domain. -/
theorem unnamedProtocols : Obligations.UnnamedProtocols := by
  intro s p hp
  have hnone : protoName p = none := (protoName_eq_none_iff p).mpr hp
  have hrow : decode (protoWord p) = .ok (.protoNone p) := by
    rw [decode_protoWord, protoInstr_unnamed hnone]
  exact ⟨hrow, exec_protoNone_unnamed hnone s, rfl, nameCode_le, give_next (.u8 p) s⟩

end Sys2Proof.Machine
end

section
/-!
The formatting operations (43_formatting.md R140 to R147): what the texts of `FMT_HEX` and `FMT_DEC` denote, the
forms that are made of them, and the operands outside their domain.
-/

namespace Sys2Proof.Machine

/-- Settles O37: an operation that only computes gives a value. -/
theorem computingChangesOnlyTheValue : Obligations.ComputingChangesOnlyTheValue := by
  intro s t i hi h
  obtain ⟨v, rfl⟩ := exec_onlyComputes hi h
  rfl

/-! ## Digits and the value they denote -/

section Digits

variable {digits : List Char} {d : Nat}

theorem digitOf_mem (hd : d < digits.length) : digitOf digits d ∈ digits := by
  rw [digitOf, List.getD_eq_getElem _ _ hd]
  exact List.getElem_mem hd

/-- The digit of `d` stands at place `d` of digit characters that are all different. -/
theorem idxOf_digitOf (hnd : digits.Nodup) (hd : d < digits.length) : digits.idxOf (digitOf digits d) = d := by
  rw [digitOf, List.getD_eq_getElem _ _ hd, hnd.idxOf_getElem]

/-- A digit on the right is the least significant one. -/
theorem digitsValue_append_digitOf (hnd : digits.Nodup) (hd : d < digits.length) (t : Text) :
    digitsValue digits (t ++ [digitOf digits d]) = digitsValue digits t * digits.length + d := by
  simp [digitsValue, idxOf_digitOf hnd hd]

theorem digitsValue_digitOf (hnd : digits.Nodup) (hd : d < digits.length) :
    digitsValue digits [digitOf digits d] = d := by
  simp [digitsValue, idxOf_digitOf hnd hd]

end Digits

@[simp] theorem length_hexDigits (c : HexCase) : (hexDigits c).length = 16 := by cases c <;> rfl

theorem nodup_hexDigits (c : HexCase) : (hexDigits c).Nodup := by cases c <;> decide

theorem nodup_decimalDigits : decimalDigits.Nodup := by decide

theorem mod_lt_length_hexDigits (c : HexCase) (v : Nat) : v % 16 < (hexDigits c).length := by
  rw [length_hexDigits]
  exact Nat.mod_lt v (by decide)

theorem mod_lt_length_decimalDigits (v : Nat) : v % 10 < decimalDigits.length := Nat.mod_lt v (by decide)

/-! ## Hexadecimal text (43_formatting.md R141) -/

@[simp] theorem length_hexText (c : HexCase) (k v : Nat) : (hexText c k v).length = k := by
  induction k generalizing v with
  | zero => rfl
  | succ k ih => simp [hexText, ih]

theorem mem_hexDigits_of_mem_hexText {c : HexCase} {k v : Nat} {x : Char} (hx : x ∈ hexText c k v) :
    x ∈ hexDigits c := by
  induction k generalizing v with
  | zero => cases hx
  | succ k ih =>
    rw [hexText, List.mem_append, List.mem_singleton] at hx
    obtain hx | rfl := hx
    · exact ih hx
    · exact digitOf_mem (mod_lt_length_hexDigits c v)

/-- `k` hexadecimal digits denote the value modulo `16 ^ k`. -/
theorem digitsValue_hexText (c : HexCase) (k v : Nat) :
    digitsValue (hexDigits c) (hexText c k v) = v % 16 ^ k := by
  induction k generalizing v with
  | zero => exact (Nat.mod_one v).symm
  | succ k ih =>
    rw [hexText, digitsValue_append_digitOf (nodup_hexDigits c) (mod_lt_length_hexDigits c v), ih,
      length_hexDigits, pow_succ', Nat.mod_mul]
    omega

/-- The domain of R141: one or two carrier bytes, and a value below `256` to their number. -/
theorem fitsCarrier_iff {v : U16} {n : Nat} :
    fitsCarrier v n = true ↔ (n = 1 ∨ n = 2) ∧ v.toNat < 256 ^ n := by
  simp [fitsCarrier]

/-- `FMT_HEX` on its domain gives its text and changes nothing else. -/
theorem exec_fmtHex {v : U16} {n : Nat} (h : fitsCarrier v n = true) (s : State) :
    exec (.fmtHex v n) s = .next { s with ret := .text (fmtHex s.params.hexCase v.toNat n) } := by
  rw [exec, execFmtHex, if_pos h, give_next]

/-- Settles O26: the `2n` digits denote the value modulo `16 ^ (2n)`, which is `256 ^ n`. -/
theorem hexTextDenotesValue : Obligations.HexTextDenotesValue := by
  intro s v n hn hv
  have hvalue : digitsValue (hexDigits s.params.hexCase) (hexText s.params.hexCase (2 * n) v.toNat) =
      v.toNat := by
    rw [digitsValue_hexText, pow_mul]
    exact Nat.mod_eq_of_lt hv
  exact ⟨_, exec_fmtHex (fitsCarrier_iff.mpr ⟨hn, hv⟩) s, length_hexText _ _ _, hvalue,
    fun _ => mem_hexDigits_of_mem_hexText, rfl, rfl⟩

/-! ## Decimal text (43_formatting.md R142) -/

/-- Any fuel above the value gives the same text. -/
theorem decText_fuel {m n v : Nat} (hm : v < m) (hn : v < n) : decText m v = decText n v := by
  induction m generalizing n v with
  | zero => omega
  | succ m ih =>
    cases n with
    | zero => omega
    | succ n =>
      rw [decText, decText]
      split
      · rfl
      · rw [ih (n := n) (by omega) (by omega)]

theorem fmtDec_of_lt {v : Nat} (h : v < 10) : fmtDec v = [digitOf decimalDigits v] := if_pos h

/-- The text of a value of two or more digits is that of its tenth and the last digit. -/
theorem fmtDec_of_ge {v : Nat} (h : 10 ≤ v) :
    fmtDec v = fmtDec (v / 10) ++ [digitOf decimalDigits (v % 10)] := by
  rw [fmtDec, decText, if_neg (Nat.not_lt.mpr h), decText_fuel (n := v / 10 + 1) (by omega) (by omega), fmtDec]

/-- Induction on the number of decimal digits. -/
theorem decimal_induction {P : Nat → Prop} (digit : ∀ v, v < 10 → P v)
    (more : ∀ v, 10 ≤ v → P (v / 10) → P v) (v : Nat) : P v := by
  induction v using Nat.strong_induction_on with
  | _ v ih =>
    by_cases h : v < 10
    · exact digit v h
    · exact more v (by omega) (ih (v / 10) (by omega))

/-- The decimal text denotes the value. -/
theorem digitsValue_fmtDec (v : Nat) : digitsValue decimalDigits (fmtDec v) = v := by
  induction v using decimal_induction with
  | digit v h => rw [fmtDec_of_lt h, digitsValue_digitOf nodup_decimalDigits h]
  | more v h ih =>
    rw [fmtDec_of_ge h, digitsValue_append_digitOf nodup_decimalDigits (mod_lt_length_decimalDigits v), ih]
    exact Nat.div_add_mod' v 10

theorem mem_decimalDigits_of_mem_fmtDec {v : Nat} {x : Char} (hx : x ∈ fmtDec v) : x ∈ decimalDigits := by
  induction v using decimal_induction with
  | digit v h =>
    rw [fmtDec_of_lt h, List.mem_singleton] at hx
    exact hx ▸ digitOf_mem h
  | more v h ih =>
    rw [fmtDec_of_ge h, List.mem_append, List.mem_singleton] at hx
    obtain hx | rfl := hx
    · exact ih hx
    · exact digitOf_mem (mod_lt_length_decimalDigits v)

theorem fmtDec_ne_nil (v : Nat) : fmtDec v ≠ [] := by
  by_cases h : v < 10
  · simp [fmtDec_of_lt h]
  · simp [fmtDec_of_ge (Nat.not_lt.mp h)]

/-- Only the text of 0 begins with `0`: the first digit of a longer text is that of a tenth, which is not 0. -/
theorem eq_zero_of_head?_fmtDec {v : Nat} (hhead : (fmtDec v).head? = some '0') : v = 0 := by
  induction v using decimal_induction with
  | digit v h =>
    rw [fmtDec_of_lt h, List.head?_singleton, Option.some_inj] at hhead
    rw [← idxOf_digitOf nodup_decimalDigits h, hhead]
    rfl
  | more v h ih =>
    rw [fmtDec_of_ge h, List.head?_append_of_ne_nil _ (fmtDec_ne_nil _)] at hhead
    have hzero : v / 10 = 0 := ih hhead
    omega

/-- `FMT_DEC` gives its text and changes nothing else. -/
theorem exec_fmtDec (v : U32) (s : State) :
    exec (.fmtDec v) s = .next { s with ret := .text (fmtDec v.toNat) } := give_next _ s

/-- `FMT_DEC` of a narrower value is that of the value in 32 bits. -/
theorem exec_fmtDec_setWidth {w : Nat} (hw : w ≤ 32) (v : BitVec w) (s : State) :
    exec (.fmtDec (v.setWidth 32)) s = .next { s with ret := .text (fmtDec v.toNat) } := by
  rw [exec_fmtDec, BitVec.toNat_setWidth_of_le hw]

/-- Settles O27: a text that begins with `0` is that of 0. -/
theorem decimalTextIsShortest : Obligations.DecimalTextIsShortest := by
  intro s v
  refine ⟨_, exec_fmtDec v s, digitsValue_fmtDec _, fun _ => mem_decimalDigits_of_mem_fmtDec,
    fmtDec_ne_nil _, fun hhead => ?_⟩
  rw [eq_zero_of_head?_fmtDec hhead]
  rfl

/-! ## The texts of fields, addresses and protocols (43_formatting.md R143 to R147) -/

/-- `FMT_FIELD` on its domain gives its pair of texts and changes nothing else. -/
theorem exec_fmtField {f : Field} {v : U16} {n : Nat} (hn : carrierBytes f = some n)
    (h : fitsCarrier v n = true) (s : State) :
    exec (.fmtField f v) s = .next
      { s with ret := .texts (fieldHex s.params.hexCase f v.toNat n) (fmtDec v.toNat) } := by
  simp only [exec, execFmtField, hn, if_pos h, give_next]

theorem hasZeroLiteral_iff (f : Field) :
    hasZeroLiteral f = true ↔ f = .identification ∨ f = .fragmentOffset := by
  cases f <;> decide

/-- The hexadecimal text of a field is the zero-literal for 0 in the two fields that have it. -/
theorem fieldHex_eq_ite (c : HexCase) (f : Field) (v : U16) (n : Nat) :
    fieldHex c f v.toNat n =
      if (f = .identification ∨ f = .fragmentOffset) ∧ v = 0#16 then ['0', 'x', '0']
      else fmtHex c v.toNat n := by
  simp only [fieldHex, Bool.and_eq_true, hasZeroLiteral_iff, beq_iff_eq, ← BitVec.toNat_inj,
    BitVec.toNat_ofNat, Nat.zero_mod]

/-- A field with a carrier width has one or two carrier bytes (43_formatting.md R144). -/
theorem carrierBytes_eq_one_or_two {f : Field} {n : Nat} (h : carrierBytes f = some n) : n = 1 ∨ n = 2 := by
  cases f <;> cases h <;> decide

/-- Settles O28: each listed width is the field's carrier width, and what is not the zero-literal is the text of
`FMT_HEX` for that width. -/
theorem fieldTextHasZeroLiteral : Obligations.FieldTextHasZeroLiteral := by
  intro s f n v hf hv
  have hn : carrierBytes f = some n := by
    refine (?_ : ∀ r ∈ _, carrierBytes r.1 = some r.2) (f, n) hf
    decide
  have hfits : fitsCarrier v n = true := fitsCarrier_iff.mpr ⟨carrierBytes_eq_one_or_two hn, hv⟩
  refine ⟨_, _, exec_fmtField hn hfits s, exec_fmtDec_setWidth (by decide) v s, ?_⟩
  rw [fieldHex_eq_ite]
  split_ifs
  · rfl
  · exact exec_fmtHex hfits s

/-- `FMT_ADDR` gives its text and changes nothing else. -/
theorem exec_fmtAddr (o0 o1 o2 o3 : Byte) (s : State) :
    exec (.fmtAddr o0 o1 o2 o3) s = .next { s with ret := .text (fmtAddr o0 o1 o2 o3) } := give_next _ s

/-- Settles O29: the four texts are those of the octets. -/
theorem addressTextIsDotted : Obligations.AddressTextIsDotted := by
  intro s o0 o1 o2 o3
  have hoctet (o : Byte) : exec (.fmtDec (o.setWidth 32)) s = .next { s with ret := .text (fmtDec o.toNat) } :=
    exec_fmtDec_setWidth (by decide) o s
  refine ⟨_, _, _, _, ?_, hoctet o0, hoctet o1, hoctet o2, hoctet o3⟩
  rw [exec_fmtAddr]
  simp [fmtAddr]

/-- The row that a protocol value selects gives what the table has for the value (42_protocol_lookup.md R120). -/
theorem exec_protoInstr (p : Byte) (s : State) :
    exec (protoInstr p) s = .next { s with ret := .name (protoName p) } := by
  cases hp : protoName p with
  | none => rw [protoInstr_unnamed hp, exec_protoNone_unnamed hp]
  | some n =>
    have hrow : protoInstr p = nameInstr n := by rw [protoInstr, hp]
    rw [hrow, exec_nameInstr]

/-- `FMT_PROTO` gives the texts of the field, and the name, and changes nothing else. -/
theorem exec_fmtProto (p : Byte) (s : State) :
    exec (.fmtProto p) s = .next
      { s with
        ret := .protoTexts (fieldHex s.params.hexCase .protocol p.toNat 1) (fmtDec p.toNat) (protoName p) } :=
  give_next _ s

/-- Settles O30: a protocol value fits the one carrier byte of its field, and selects the row that names it. -/
theorem protocolTextHasOptionalName : Obligations.ProtocolTextHasOptionalName := by
  intro s p
  have hfits : fitsCarrier (p.setWidth 16) 1 = true := fitsCarrier_of_carrierValue (bs := [p]) rfl
  have hfield := exec_fmtField (f := .protocol) rfl hfits s
  rw [BitVec.toNat_setWidth_of_le (by decide)] at hfield
  exact ⟨_, _, _, exec_fmtProto p s, hfield, _, decode_protoWord p, exec_protoInstr p s⟩

/-! ## Operands outside a rule's domain (42_protocol_lookup.md R133, 43_formatting.md R141, R144) -/

/-- Settles O31: only three operations, the default protocol row, `FMT_HEX` and `FMT_FIELD`, have operands that
are not well-formed. -/
theorem illFormedOperandsAreRefused : Obligations.IllFormedOperandsAreRefused := by
  intro s i hwf
  cases i with
  | protoNone p => exact if_neg (Bool.eq_false_iff.mp hwf)
  | fmtHex v n => exact if_neg (Bool.eq_false_iff.mp hwf)
  | fmtField f v =>
    rw [exec, execFmtField]
    cases hn : carrierBytes f with
    | none => rfl
    | some n =>
      have hfits : fitsCarrier v n = false := by simpa only [Instr.wf, hn] using hwf
      exact if_neg (Bool.eq_false_iff.mp hfits)
  | _ => cases hwf

end Sys2Proof.Machine
end

section
/-!
The errors that end a run (60_exceptions.md): the end of the stream inside a record, the phase that alone decides
what can run, and what an end status says of the records reported.
-/

namespace Sys2Proof.Machine

variable {s t : State}

/-! ## The operations on a symbol (60_exceptions.md R153, R168) -/

/-- Settles O11: in each of the three phases of a record. -/
theorem endOfStreamTruncatesRecord : Obligations.EndOfStreamTruncatesRecord := by
  rintro s _ (⟨hst, rfl⟩ | ⟨hst, rfl⟩ | ⟨hst, rfl⟩)
  · exact execReadLen_eos hst
  · exact execReadPayload_eos hst
  · exact execReadDrain_eos hst

/-- Settles O16: each of the four operations looks at its phase first. -/
theorem phaseSelectsSymbolOperation : Obligations.PhaseSelectsSymbolOperation :=
  fun _ _ => ⟨fun hst => if_pos hst, fun hst => if_pos hst, fun hst => if_pos hst, fun hst => if_pos hst⟩

/-! ## What the end status says (60_exceptions.md R163, R164) -/

/-- A run that reports fewer records than its announced count ends inside a record: success reports them all, and a
truncated count announces none. -/
theorem Inv.truncatedRecord_of_fewer (h : Inv s) (hst : s.st = .sEnd)
    (hfewer : (recordIndices s.events).length < s.pcount.toNat) (hcount : announcedCounts s.events ≠ []) :
    s.endCode = .truncatedRecord := by
  cases hcode : s.endCode with
  | ok =>
    rw [h.allReported hst hcode, List.length_range'] at hfewer
    exact absurd hfewer (lt_irrefl _)
  | truncatedStream =>
    rw [h.truncatedEarly hst hcode] at hcount
    exact absurd rfl hcount
  | truncatedRecord => rfl

/-- Settles O48: the run ends in a state of the invariant, whose item 8 is the first half. -/
theorem successReportsEveryRecord : Obligations.SuccessReportsEveryRecord := by
  intro p bytes t hrun
  have hstart := (invariantAtStart.2 p bytes).1
  have hinv := run_keeps_inv hstart hrun
  obtain ⟨t', hrun', hst, -, -⟩ := runReachesEnd _ hstart
  obtain rfl : t = t' := Host.Outcome.next.inj (hrun.symm.trans hrun')
  exact ⟨hinv.allReported hst, hinv.truncatedRecord_of_fewer hst⟩

/-! ## Streams with the same first bytes (60_exceptions.md R163) -/

/-- A run of any number of steps answers in a next state (40_framer.md R90). -/
theorem run_answers (hinv : Inv s) (k : Nat) : ∃ t, Host.Core.run core k s = .next t := by
  induction k generalizing s with
  | zero => exact ⟨s, rfl⟩
  | succ k ih =>
    obtain ⟨s', hstep⟩ := stepAnswersNextState s hinv
    rw [run_succ hstep]
    exact ih (stepKeepsInvariant s s' hinv hstep)

/-- A step moves the cursor by one byte at most. -/
theorem step_cur_le (hc : s.calls = []) (h : step s = .next t) : t.cur ≤ s.cur + 1 := by
  rw [stepMovesCursorByOneByte s t hc h]
  split <;> omega

/-- `k` steps depend on the stream only through the `k` symbols from the cursor on. -/
theorem run_setStream (x : List Byte) {k : Nat} (hinv : Inv s)
    (hsame : ∀ n, n < s.cur + k → x[n]? = s.stream[n]?) (h : Host.Core.run core k s = .next t) :
    Host.Core.run core k (setStream x s) = .next (setStream x t) := by
  induction k generalizing s with
  | zero =>
    cases h
    rfl
  | succ k ih =>
    obtain ⟨s', hstep, hrun⟩ := run_succ_cases h
    have hsym : nextSymbol (setStream x s) = nextSymbol s := by
      simp only [nextSymbol, setStream, hsame s.cur (by omega)]
    rw [run_succ (step_setStream x hinv.noCalls (.inr hsym) hstep)]
    have hcur := step_cur_le hinv.noCalls hstep
    refine ih (stepKeepsInvariant s s' hinv hstep) (fun n hn => ?_) hrun
    rw [(step_sameInput hinv.noCalls hstep).stream]
    exact hsame n (by omega)

/-- Settles O49: the steps over the common bytes see no other byte. -/
theorem commonPrefixGivesSameRun : Obligations.CommonPrefixGivesSameRun := by
  intro p common rest rest'
  have hinv := (invariantAtStart.2 p (common ++ rest)).1
  obtain ⟨t, hrun⟩ := run_answers hinv common.length
  refine ⟨t, hrun, run_setStream (common ++ rest') hinv (fun n hn => ?_) hrun⟩
  have hlt : n < common.length := hn.trans_eq (Nat.zero_add _)
  exact (List.getElem?_append_left hlt).trans (List.getElem?_append_left hlt).symm

end Sys2Proof.Machine
end

section
/-!
Reset, and what one clock edge runs (70_reset_and_hazards.md R180 to R190).
-/

namespace Sys2Proof.Machine

variable {s : State} {p : PortsIn}

/-! ## The buffer between records (70_reset_and_hazards.md R190) -/

/-- The state in which a completed length is dispatched is the same whatever the buffer held (10_state.md R32). -/
theorem lengthDone_setPbuf (b : Byte) (s : State) (m : Memory) :
    lengthDone b { s with pbuf := m } = lengthDone b s := rfl

/-- Settles O23: the length is dispatched from a state that has forgotten the old buffer, and the dispatch stores
nothing. -/
theorem noStaleBytes : Obligations.NoStaleBytes := by
  intro s m b hst hb
  obtain ⟨t, ht⟩ := dispatchLength_answers (lengthDone b s).dlen (lengthDone b s)
  refine ⟨t, (execReadLen_last b hst hb).trans ht, ?_, fun a => ?_⟩
  · refine (execReadLen_last (s := { s with pbuf := m }) b hst hb).trans ?_
    rw [lengthDone_setPbuf]
    exact ht
  · rw [dispatchLength_pbuf ht, lengthDone_pbuf, Memory.read_nil]

/-! ## Reset (70_reset_and_hazards.md R180, R182) -/

/-- Settles O1: the reset state is written out in the model, and the codes of its names are 0. -/
theorem resetValues : Obligations.ResetValues := by
  unfold Obligations.ResetValues
  decide

theorem clockEdge_reset (s : State) (h : p.rst = true) : clockEdge p s = .next (resetOn s.stream s) :=
  congrArg runFetched (if_pos h)

/-- Settles O2: `rst` goes before every other input, and `resetOn` keeps what is not the block's. -/
theorem resetEdgeAbandonsRun : Obligations.ResetEdgeAbandonsRun :=
  fun _ s h => clockEdge_reset s h

/-! ## The edge without reset (70_reset_and_hazards.md R187) -/

theorem offered_byte (hv : p.inValid = true) : offered p = some (.byte p.inData) := if_pos hv

theorem offered_eos (hv : p.inValid = false) (he : p.inEos = true) : offered p = some .eos := by
  simp [offered, hv, he]

theorem offered_none (hv : p.inValid = false) (he : p.inEos = false) : offered p = none := by
  simp [offered, hv, he]

/-- An offered symbol is run as the operation that the phase selects (40_framer.md R90). -/
theorem clockEdge_offered {sym : Symbol} {i : Instr} (hrst : p.rst = false) (ho : offered p = some sym)
    (hi : phaseInstr s.st sym = .ok i) : clockEdge p s = exec i s := by
  rw [clockEdge, edge, if_neg (by simp [hrst]), ho]
  exact runFetched_fetchSymbol hi

/-- Without a symbol every register holds and the strobes go inactive. -/
theorem clockEdge_idle (hrst : p.rst = false) (ho : offered p = none) : clockEdge p s = .next (quiet s) := by
  rw [clockEdge, edge, if_neg (by simp [hrst]), ho, runFetched]

/-- Settles O34: what the cycle offers, and the operation that each phase selects for it. -/
theorem edgeRunsOfferedSymbol : Obligations.EdgeRunsOfferedSymbol := by
  intro s p hrst
  have byte {ph : Phase} {i : Instr} (hi : phaseInstr ph (.byte p.inData) = .ok i) (hv : p.inValid = true)
      (hst : s.st = ph) : clockEdge p s = exec i s := clockEdge_offered hrst (offered_byte hv) (hst ▸ hi)
  have eos {ph : Phase} {i : Instr} (hi : phaseInstr ph .eos = .ok i) (hv : p.inValid = false)
      (he : p.inEos = true) (hst : s.st = ph) : clockEdge p s = exec i s :=
    clockEdge_offered hrst (offered_eos hv he) (hst ▸ hi)
  exact ⟨byte rfl, byte rfl, byte rfl, byte rfl, eos rfl, eos rfl, eos rfl, eos rfl,
    fun hv he => clockEdge_idle hrst (offered_none hv he)⟩

end Sys2Proof.Machine
end

section
/-!
The header vector put back together from its slices (41_ipv4_fields.md section 4).
-/

namespace Sys2Proof.Machine

/-- The slices that the layout gives (30_encoding.md R62) are consecutive: in order they are the header vector. -/
theorem append_fieldSlices (h : Hdr) :
    h.extractLsb' 156 4 ++ h.extractLsb' 152 4 ++ h.extractLsb' 144 8 ++ h.extractLsb' 128 16 ++
      h.extractLsb' 112 16 ++ h.extractLsb' 109 3 ++ h.extractLsb' 96 13 ++ h.extractLsb' 88 8 ++
      h.extractLsb' 80 8 ++ h.extractLsb' 64 16 ++ h.extractLsb' 32 32 ++ h.extractLsb' 0 32 = h := by
  -- eleven times, the two slices in front are joined into one
  iterate 11 rw [BitVec.extractLsb'_append_extractLsb'_eq_extractLsb' (by rfl)]
  exact BitVec.extractLsb'_eq_self

/-- Settles O21: the fields of `DECODE` are the slices of the layout, which leave out no bit. -/
theorem fieldsDetermineHeader : Obligations.FieldsDetermineHeader := by
  intro s t h d hnext hret
  obtain rfl := Host.Outcome.next.inj ((decodeTakesSlices.2 s h).symm.trans hnext)
  obtain rfl := Value.header.inj hret
  exact (append_fieldSlices h).symm

end Sys2Proof.Machine
end
